-- ==== Sys2Proof/Word.lean ====
section
/-! DEFINITION. The machine's word types (00_scope.md R7, R8, R13). -/

namespace Sys2Proof

/-- A memory cell, a general register, a timer, an immediate `kk`: 8 bits (00_scope.md R1, R7). -/
abbrev Byte := BitVec 8

/-- An instruction word, `I`, `pc`, a stack entry: 16 bits (00_scope.md R7). -/
abbrev Word := BitVec 16

/-- The field `nnn` and the loader's address port: 12 bits (00_scope.md R13, 10_state.md R42). -/
abbrev Addr12 := BitVec 12

/-- A register index 0-15, naming V0-VF (30_encoding.md R87). -/
abbrev Reg := Fin 16

/-- The 16 key states, bit k = key k pressed (10_state.md R36). -/
abbrev KeySet := BitVec 16

/-- One display row as the sink reads it, bit c = column c (10_state.md R42, port `fb_data`). -/
abbrev PixelRow := BitVec 64

/-- VF, the flag register (10_state.md R21). -/
abbrev VF : Reg := 15

end Sys2Proof
end

