-- ==== Sys2Proof/Config.lean ====
section
/-! DEFINITION. Sizes fixed by the spec, the open parameters and the free values (00_scope.md R7). -/

namespace Sys2Proof

/-- `ADDR_MAX`: the highest address of Memory (00_scope.md R7, 20_memory.md R60). -/
abbrev addrMax : Nat := 0xFFF

/-- `FONT_BASE` (00_scope.md R7, 20_memory.md R67). -/
abbrev fontBase : Nat := 0x050

/-- Bytes of one glyph, the factor of Fx29 (20_memory.md R67, 43_index_memory.md R202). -/
abbrev glyphBytes : Nat := 5

/-- The font's size: 16 glyphs of 5 bytes (20_memory.md R67). -/
abbrev fontBytes : Nat := 80

/-- `PROGRAM_BASE`, which is also the reset pc (00_scope.md R7). -/
abbrev programBase : Nat := 0x200

/-- The most bytes the program loader stores: 0x1000 - 0x200 (70_reset_and_hazards.md R304). -/
abbrev programCapacity : Nat := 3584

/-- `DISPLAY_WIDTH` (10_state.md R33). -/
abbrev displayWidth : Nat := 64

/-- `DISPLAY_HEIGHT` (10_state.md R33). -/
abbrev displayHeight : Nat := 32

/-- `KEYWAIT_MODE`: what Fx0A does (44_timers_input.md R245 and R246, D20). -/
inductive KeyWaitMode where
  | suspend
  | nop
  deriving DecidableEq, Repr

/-- `I_POSTINC_CHECK`: whether Fx55 and Fx65 also fault when the new I would be 0x1000
(43_index_memory.md R204, D4). -/
inductive PostIncCheck where
  | strict
  | lenient
  deriving DecidableEq, Repr

/-- The parameters a model takes as arguments (00_scope.md R7). They stand in `State` and nothing
writes them (log 5). -/
structure Config where
  keyWait : KeyWaitMode
  postInc : PostIncCheck
  /-- `STACK_CAPACITY`, any value of at least 16 (10_state.md R29). -/
  stackCapacity : Nat
  deriving DecidableEq, Repr

/-- This hardware's values: the defaults of 00_scope.md R7. -/
def Config.default : Config where
  keyWait := .suspend
  postInc := .strict
  stackCapacity := 16

/-- The capacities the spec allows (10_state.md R29: any value >= 16). -/
abbrev Config.legal (c : Config) : Prop := 16 ≤ c.stackCapacity

/-- FREE VALUE: the key snapshot of a cycle whose `keys` input is not given
(10_state.md R36: "a free input of each instruction step, and nothing constrains it"; log 4). -/
opaque Config.freeKeys : Nat → KeySet

/-- FREE VALUE: the random byte of a cycle whose `rnd` input is not given
(10_state.md R43: "a free draw of each Cxkk step, with no law"; log 4). -/
opaque Config.freeRnd : Nat → Byte

end Sys2Proof
end

