-- ==== Sys2Proof/Syntax.lean ====
section
/-! DEFINITION. The instructions: one constructor for each of the 34 rows of the opcode table
(30_encoding.md R85). -/

namespace Sys2Proof

/-- An instruction with its operand fields (30_encoding.md R84, R87), in the table's order. -/
inductive Instr where
  /-- 00E0 `CLS` (R110) -/
  | cls
  /-- 00EE `RET` (R130) -/
  | ret
  /-- 1nnn `JP nnn` (R131) -/
  | jp (nnn : Addr12)
  /-- 2nnn `CALL nnn` (R132) -/
  | call (nnn : Addr12)
  /-- 3xkk `SE Vx, kk` (R133) -/
  | seImm (x : Reg) (kk : Byte)
  /-- 4xkk `SNE Vx, kk` (R134) -/
  | sneImm (x : Reg) (kk : Byte)
  /-- 5xy0 `SE Vx, Vy` (R135) -/
  | seReg (x y : Reg)
  /-- 6xkk `LD Vx, kk` (R161) -/
  | ldImm (x : Reg) (kk : Byte)
  /-- 7xkk `ADD Vx, kk` (R162) -/
  | addImm (x : Reg) (kk : Byte)
  /-- 8xy0 `LD Vx, Vy` (R163) -/
  | ldReg (x y : Reg)
  /-- 8xy1 `OR Vx, Vy` (R164) -/
  | orReg (x y : Reg)
  /-- 8xy2 `AND Vx, Vy` (R165) -/
  | andReg (x y : Reg)
  /-- 8xy3 `XOR Vx, Vy` (R166) -/
  | xorReg (x y : Reg)
  /-- 8xy4 `ADD Vx, Vy` (R167) -/
  | addReg (x y : Reg)
  /-- 8xy5 `SUB Vx, Vy` (R168) -/
  | subReg (x y : Reg)
  /-- 8xy6 `SHR Vx, Vy` (R169) -/
  | shrReg (x y : Reg)
  /-- 8xy7 `SUBN Vx, Vy` (R170) -/
  | subnReg (x y : Reg)
  /-- 8xyE `SHL Vx, Vy` (R171) -/
  | shlReg (x y : Reg)
  /-- 9xy0 `SNE Vx, Vy` (R136) -/
  | sneReg (x y : Reg)
  /-- Annn `LD I, nnn` (R200) -/
  | ldI (nnn : Addr12)
  /-- Bnnn `JP V0, nnn` (R137) -/
  | jpV0 (nnn : Addr12)
  /-- Cxkk `RND Vx, kk` (R190) -/
  | rnd (x : Reg) (kk : Byte)
  /-- Dxyn `DRW Vx, Vy, n` (R111); n is a count, 0 to 15 in a well-formed instruction (R87) -/
  | drw (x y : Reg) (n : Nat)
  /-- Ex9E `SKP Vx` (R240) -/
  | skp (x : Reg)
  /-- ExA1 `SKNP Vx` (R241) -/
  | sknp (x : Reg)
  /-- Fx07 `LD Vx, DT` (R230) -/
  | ldVxDt (x : Reg)
  /-- Fx0A `LD Vx, K` (R245, R246) -/
  | ldVxK (x : Reg)
  /-- Fx15 `LD DT, Vx` (R231) -/
  | ldDtVx (x : Reg)
  /-- Fx18 `LD ST, Vx` (R232) -/
  | ldStVx (x : Reg)
  /-- Fx1E `ADD I, Vx` (R201) -/
  | addI (x : Reg)
  /-- Fx29 `LD F, Vx` (R202) -/
  | ldF (x : Reg)
  /-- Fx33 `LD B, Vx` (R203) -/
  | ldB (x : Reg)
  /-- Fx55 `LD [I], Vx` (R204) -/
  | storeRegs (x : Reg)
  /-- Fx65 `LD Vx, [I]` (R205) -/
  | loadRegs (x : Reg)
  deriving DecidableEq, Repr

end Sys2Proof
end

