-- ==== Sys2Proof/WellFormed.lean ====
section
/-! DEFINITION. Which instruction terms an encoding exists for. Register indices, `kk` and `nnn` have
exactly their field's width as types; the sprite height is the one operand that needs a check. -/

namespace Sys2Proof

/-- The sprite height fits its 4-bit field (30_encoding.md R84, R87: "an unsigned 4-bit count (0-15)"). -/
def heightFits (n : Nat) : Bool := n < 16

/-- Every operand fits its field. -/
def Instr.wellFormed : Instr → Bool
  | .drw _ _ n => heightFits n
  | .cls | .ret | .jp _ | .call _ | .seImm _ _ | .sneImm _ _ | .seReg _ _ | .ldImm _ _ | .addImm _ _
  | .ldReg _ _ | .orReg _ _ | .andReg _ _ | .xorReg _ _ | .addReg _ _ | .subReg _ _ | .shrReg _ _
  | .subnReg _ _ | .shlReg _ _ | .sneReg _ _ | .ldI _ | .jpV0 _ | .rnd _ _ | .skp _ | .sknp _
  | .ldVxDt _ | .ldVxK _ | .ldDtVx _ | .ldStVx _ | .addI _ | .ldF _ | .ldB _ | .storeRegs _
  | .loadRegs _ => true

/-- The well-formed instructions: those a word encodes. -/
abbrev Instr.WellFormed (i : Instr) : Prop := i.wellFormed = true

end Sys2Proof
end

