-- ==== Sys2Proof/Machine/State.lean ====
section
/-! DEFINITION. Everything the machine holds, the reasons a step can stop, and the state after reset
(10_state.md R20 to R43). Plain data only. -/

namespace Sys2Proof.Machine

/-- Memory as (address, byte) pairs: addresses strictly rising, every entry different from what an
unlisted address reads as (20_memory.md R60). The operations are in Machine/Ops.lean. -/
abbrev Memory := List Host.Cell

/-- The 2-bit register `run_state` (10_state.md R38). -/
inductive RunState where
  /-- After reset; the loader may write memory; no cycle runs. -/
  | idle
  /-- Cycles and timer ticks run. -/
  | running
  /-- A fatal fault occurred; nothing runs until reset. -/
  | halted
  /-- A cancellation request was honoured; nothing runs until reset. -/
  | stopped
  deriving DecidableEq, Repr

/-- The cause codes 0 to 7 (60_exceptions.md R260), by name. -/
inductive Cause where
  | none
  | unknownOpcode
  | stackUnderflow
  | stackOverflow
  | memoryFault
  | keyIndexFault
  | keyWaitUnsupported
  /-- Code 7, never raised. -/
  | reserved
  deriving DecidableEq, Repr

/-- The 1-bit register `fault_stage` (10_state.md R39). -/
inductive Stage where
  | fetch
  | execute
  deriving DecidableEq, Repr

/-- The fault record the host reads (10_state.md R39). -/
structure FaultRecord where
  cause : Cause
  stage : Stage
  pc : Word
  insn : Word
  addr : Word
  deriving DecidableEq, Repr

/-- The fault record after reset: all 0 (10_state.md R39, R41). -/
def FaultRecord.zero : FaultRecord where
  cause := .none
  stage := .fetch
  pc := 0
  insn := 0
  addr := 0

/-- One report of a non-fatal condition (10_state.md R40, 60_exceptions.md R262). -/
structure EventRecord where
  code : Cause
  pc : Word
  insn : Word
  deriving DecidableEq, Repr

/-- What the world outside the core may ask of it, one input of 10_state.md R42 each
(60_exceptions.md R281, R285). -/
inductive Request where
  /-- `step`: run one cycle, with the values the ports `keys` and `rnd` have in it. -/
  | step (keys : KeySet) (rnd : Byte)
  /-- `timer_tick`: one 1/60 s interval has elapsed. -/
  | tick
  /-- `cancel`: the user asks to quit. -/
  | cancel
  /-- `start`: IDLE to RUNNING. -/
  | start
  /-- `rst`. -/
  | rst
  /-- `load_we` with `load_addr` and `load_data`. -/
  | load (addr : Addr12) (data : Byte)
  deriving DecidableEq, Repr

/-- The whole state: the table of 10_state.md R41, the parameters, and what the model itself needs
(the last three fields). -/
structure State where
  /-- The parameters of 00_scope.md R7; nothing writes them (log 5). -/
  cfg : Config
  /-- V0 to VF (R20). -/
  V : Vector Byte 16
  /-- The index register (R23). -/
  I : Word
  /-- The program counter (R25, R26): at a boundary the next instruction's address, during Execute
  the executing instruction's address plus 2. -/
  pc : Word
  /-- Stack[0] to Stack[STACK_CAPACITY - 1] (R28, R29). -/
  stack : List Word
  /-- SP, the count of valid stack entries (R29). -/
  sp : Nat
  /-- The delay timer DT (R31). -/
  dt : Byte
  /-- The sound timer ST (R31). -/
  st : Byte
  /-- The framebuffer: row r, bit c is Fb[r][c] (R33). -/
  fb : Vector PixelRow 32
  /-- Memory (20_memory.md R60). -/
  mem : Memory
  /-- Keys: the snapshot of the current cycle, sampled anew by every cycle (R36). -/
  keys : KeySet
  /-- KeyPrev: the snapshot of the previous cycle (R37). -/
  keyPrev : KeySet
  /-- The random byte sampled in the current cycle (R43). -/
  rnd : Byte
  /-- run_state (R38). -/
  runState : RunState
  /-- The fault record (R39). -/
  fault : FaultRecord
  /-- A `cancel` that was asserted and not yet honoured (60_exceptions.md R280; log 6). -/
  cancelLatch : Bool
  /-- The event history, oldest first (R40, 60_exceptions.md R262; log 7). -/
  events : List EventRecord
  /-- The model's own: the requests not delivered yet, in the order they arrive (log 2). -/
  agenda : List Request
  /-- The level at which the host holds the 1-bit port `step` (R42) while it has nothing else to ask: held,
  it requests one cycle after the other. The port of the outside world, written by nothing here (log 3). -/
  stepHeld : Bool
  /-- The model's own: how many cycles took their inputs from the free values (log 4). -/
  freeIndex : Nat
  deriving DecidableEq, Repr

/-- Why a step stops with a fault: the four fatal causes of 60_exceptions.md R260 and R261. R268: "A
model makes a fatal fault a fault outcome of the step". Each carries the state the fault leaves
(R266: HALTED, the fault record written), so that nothing the spec gives is lost (log 1). -/
inductive Fault where
  /-- Raised by 00EE with SP = 0 (R263). Safe: the spec stops the core here. -/
  | stackUnderflow (halted : State)
  /-- Raised by 2nnn with SP = STACK_CAPACITY (R264). Safe: the spec stops the core here. -/
  | stackOverflow (halted : State)
  /-- Raised by the fetch, Dxyn, Fx1E, Fx33, Fx55 and Fx65 (R265). Safe: the spec stops the core here. -/
  | memoryFault (halted : State)
  /-- Raised by Ex9E and ExA1 with Vx > 15 (44_timers_input.md R242). Safe: the spec stops the core here. -/
  | keyIndexFault (halted : State)
  deriving DecidableEq, Repr

/-- The state a fault leaves (60_exceptions.md R266, R267). -/
def Fault.halted : Fault → State
  | .stackUnderflow s | .stackOverflow s | .memoryFault s | .keyIndexFault s => s

/-- Why a step refuses. -/
inductive Refusal where
  /-- Raised by an arm of `exec` whose instruction has no meaning. Safe. No arm raises it: all 34
  instructions have their meaning. -/
  | notModelled (mnemonic : String)
  deriving DecidableEq, Repr

/-- The reset values of 10_state.md R41 and 70_reset_and_hazards.md R300, for given parameters.
`keys` and `rnd` are 0 by choice (log 8); the latch, the history, the agenda and the free index are
empty by choice (logs 6, 7, 2, 4), and no cycle is requested (log 3). -/
def State.resetWith (c : Config) : State where
  cfg := c
  V := Vector.replicate 16 0
  I := 0
  pc := 0x200
  stack := List.replicate c.stackCapacity 0
  sp := 0
  dt := 0
  st := 0
  fb := Vector.replicate 32 0
  mem := []
  keys := 0
  keyPrev := 0
  rnd := 0
  runState := .idle
  fault := FaultRecord.zero
  cancelLatch := false
  events := []
  agenda := []
  stepHeld := false
  freeIndex := 0

/-- The machine right after reset, with this hardware's parameters. -/
def State.reset : State := State.resetWith Config.default

end Sys2Proof.Machine
end

