-- ==== Sys2Proof/Machine/Ops.lean ====
section
/-! DEFINITION. The named operations over memory, stack, pc and status that the meanings share. -/

namespace Sys2Proof.Machine

/-! ## Memory (20_memory.md R60 to R66) -/

/-- What an unlisted address reads as: 0, since reset zero-fills Memory (70_reset_and_hazards.md R300; log 11). -/
def unlisted : Byte := 0

/-- `MemRead(addr, 1)` (00_scope.md R10). -/
def Memory.read : Memory → Nat → Byte
  | [], _ => unlisted
  | (k, b) :: m, a => if a = k then b else Memory.read m a

/-- `MemWrite(addr, 1, v)` (00_scope.md R10), keeping the canonical form. -/
def Memory.write : Memory → Nat → Byte → Memory
  | [], a, v => if v = unlisted then [] else [(a, v)]
  | (k, b) :: m, a, v =>
    if a < k then (if v = unlisted then (k, b) :: m else (a, v) :: (k, b) :: m)
    else if a = k then (if v = unlisted then m else (k, v) :: m)
    else (k, b) :: Memory.write m a v

/-- The canonical form from address `lo` up: addresses strictly rising and in range, no entry equal
to `unlisted`. -/
def Memory.wfFrom (lo : Nat) : Memory → Bool
  | [] => true
  | (k, b) :: m => decide (lo ≤ k) && decide (k ≤ addrMax) && decide (b ≠ unlisted) && Memory.wfFrom (k + 1) m

/-- The canonical form. -/
def Memory.wf (m : Memory) : Bool := Memory.wfFrom 0 m

/-- The `n` bytes at `a`, `a + 1`, … (43_index_memory.md R206). -/
def Memory.readList (m : Memory) (a : Nat) : Nat → List Byte
  | 0 => []
  | n + 1 => m.read a :: Memory.readList m (a + 1) n

/-- Store bytes at `a`, `a + 1`, … in ascending order (20_memory.md R64). -/
def Memory.writeList (m : Memory) (a : Nat) : List Byte → Memory
  | [] => m
  | b :: bs => Memory.writeList (m.write a b) (a + 1) bs

/-- Some address of the `n` bytes from `base` is above 0xFFF, on unbounded naturals
(20_memory.md R62). No bytes, no check (40_display.md R112). -/
def rangeFaults (base n : Nat) : Bool := decide (0 < n) && decide (base + n - 1 > addrMax)

/-- The lowest address above 0xFFF of a range that starts at `base` and passes 0xFFF (40_display.md R111). -/
def lowestOutside (base : Nat) : Nat := if base > addrMax then base else addrMax + 1

/-! ## The program counter (10_state.md R25 to R27) -/

/-- `pc <- target`. No target is checked when it is written (41_control_flow.md R139). -/
def jump (target : Word) (s : State) : State := { s with pc := target }

/-- The fetch advance (30_encoding.md R83). -/
def advance (s : State) : State := jump (s.pc + 2) s

/-- "Skip next instr": 2 more on the already-advanced pc when the condition holds (41_control_flow.md R138). -/
def skipIf (c : Bool) (s : State) : State := jump (if c then s.pc + 2 else s.pc) s

/-- `a`, the executing instruction's address: during Execute pc = a + 2 (30_encoding.md R83; log 10). -/
def insnAddr (s : State) : Word := s.pc - 2

/-! ## The call stack (10_state.md R30) -/

/-- `Push(v)`: nothing when the stack is full, before any write (log 13 for the comparison). -/
def push (v : Word) (s : State) : Option State :=
  if s.cfg.stackCapacity ≤ s.sp then none
  else some { s with stack := s.stack.set s.sp v, sp := s.sp + 1 }

/-- `Pop()`: nothing when the stack is empty. The popped entry stays in the array, stale. -/
def pop (s : State) : Option (Word × State) :=
  if s.sp = 0 then none
  else some (s.stack.getD (s.sp - 1) 0, { s with sp := s.sp - 1 })

/-! ## Non-fatal conditions (60_exceptions.md R262) -/

/-- `report C(pc = a, insn = insn)`: one more record in the history, nothing else. -/
def report (code : Cause) (a insn : Word) (s : State) : State :=
  { s with events := s.events ++ [⟨code, a, insn⟩] }

/-! ## Taking a fatal fault (60_exceptions.md R266 to R268)

The one exception the hardware takes. There is no trap entry, no handler, no saved pc beside the fault
record and no return from a fault (R272, R273). -/

/-- The fatal causes (60_exceptions.md R261). -/
inductive FatalCause where
  | stackUnderflow
  | stackOverflow
  | memoryFault
  | keyIndexFault
  deriving DecidableEq, Repr

/-- The cause that stands in the fault record. -/
def FatalCause.cause : FatalCause → Cause
  | .stackUnderflow => .stackUnderflow
  | .stackOverflow => .stackOverflow
  | .memoryFault => .memoryFault
  | .keyIndexFault => .keyIndexFault

/-- The fault outcome's reason, with the state the fault leaves. -/
def FatalCause.fault : FatalCause → State → Fault
  | .stackUnderflow => .stackUnderflow
  | .stackOverflow => .stackOverflow
  | .memoryFault => .memoryFault
  | .keyIndexFault => .keyIndexFault

/-- `run_state <- HALTED` and the fault record (60_exceptions.md R266, R267). -/
def halt (c : FatalCause) (stage : Stage) (a insn addr : Word) (s : State) : State :=
  { s with runState := .halted, fault := ⟨c.cause, stage, a, insn, addr⟩ }

/-- `raise F(info)`: the step ends with the fault, in the state it leaves (00_scope.md R11). -/
def raise (c : FatalCause) (stage : Stage) (a insn addr : Word) (s : State) :
    Host.Outcome State Fault Refusal :=
  .fault (c.fault (halt c stage a insn addr s))

/-- A fatal fault raised by an executing instruction: fault_stage 1, fault_pc = a. -/
def raiseExecute (c : FatalCause) (insn addr : Word) (s : State) : Host.Outcome State Fault Refusal :=
  raise c .execute (insnAddr s) insn addr s

end Sys2Proof.Machine
end

