-- ==== Sys2Proof/Machine/Operands.lean ====
section
/-! DEFINITION. Operand forms: registers, immediates, the index register, timers and keys
(30_encoding.md R87, 43_index_memory.md R206). -/

namespace Sys2Proof.Machine

/-! ## General registers (00_scope.md R9, 10_state.md R20) -/

/-- `V[r]`. -/
def State.reg (s : State) (r : Reg) : Byte := s.V[r.val]

/-- `V[r] <- b`. -/
def setReg (r : Reg) (b : Byte) (s : State) : State := { s with V := s.V.set r.val b }

/-- Registers from index `k` on take the bytes of a list, in order (43_index_memory.md R205). -/
def fillRegs (V : Vector Byte 16) (k : Nat) : List Byte → Vector Byte 16
  | [] => V
  | b :: bs => fillRegs (V.setIfInBounds k b) (k + 1) bs

/-- V0 to Vx as a list of bytes (43_index_memory.md R204). -/
def regsUpTo (V : Vector Byte 16) (x : Reg) : List Byte := V.toList.take (x.val + 1)

/-! ## Immediates -/

/-- `zext_16(nnn)` (30_encoding.md R87). -/
def addrImm (nnn : Addr12) : Word := nnn.setWidth 16

/-- `zext_16(b)`. -/
def zextByte (b : Byte) : Word := b.setWidth 16

/-! ## Index register, timers -/

/-- `I <- w`. The range check comes before it (10_state.md R24). -/
def setI (w : Word) (s : State) : State := { s with I := w }

/-- `DT <- b`. -/
def setDt (b : Byte) (s : State) : State := { s with dt := b }

/-- `ST <- b`. -/
def setSt (b : Byte) (s : State) : State := { s with st := b }

/-- Memory after a store. -/
def setMem (m : Memory) (s : State) : State := { s with mem := m }

/-- The address of glyph `d`: `0x050 + 5 * d`, not masked (43_index_memory.md R202). -/
def glyphAddr (d : Byte) : Word := BitVec.ofNat 16 (fontBase + glyphBytes * d.toNat)

/-- Hundreds, tens and units of a byte (43_index_memory.md R203). -/
def bcdDigits (b : Byte) : List Byte :=
  [BitVec.ofNat 8 (b.toNat / 100), BitVec.ofNat 8 (b.toNat / 10 % 10), BitVec.ofNat 8 (b.toNat % 10)]

/-- Whether Fx55 and Fx65 fault: under `strict` when the new I, base + x + 1, would pass 0xFFF; under
`lenient` only when the last byte would (43_index_memory.md R204, 92_eei_decisions.md open parameters). -/
def blockFaults (c : PostIncCheck) (base : Nat) (x : Reg) : Bool :=
  match c with
  | .strict => decide (base + x.val + 1 > addrMax)
  | .lenient => decide (base + x.val > addrMax)

/-! ## Keys (10_state.md R36, R37) -/

/-- `Keys[k] = 1`. -/
def keyDown (keys : KeySet) (k : Nat) : Bool := keys.getLsbD k

/-- The keys with a transition from not-pressed to pressed (44_timers_input.md R247). -/
def newlyPressed (keys keyPrev : KeySet) : KeySet := keys &&& ~~~keyPrev

/-- `min(P)`: the lowest newly pressed key, if there is one (44_timers_input.md R245). -/
def lowestNewKey (keys keyPrev : KeySet) : Option Nat :=
  (List.range 16).find? (keyDown (newlyPressed keys keyPrev))

end Sys2Proof.Machine
end

