-- ==== Sys2Proof/Machine/Flags.lean ====
section
/-! DEFINITION. The flag VF: every computation the spec gives, always on the pre-operation operands
(10_state.md R21, 42_alu.md R160). -/

namespace Sys2Proof.Machine

/-- A flag as a byte: 0 or 1 (10_state.md R21). -/
def flagByte (c : Bool) : Byte := if c then 1 else 0

/-- 8xy4: the sum passes 255 (42_alu.md R167). -/
def carryOut (X Y : Byte) : Bool := decide (X.toNat + Y.toNat > 255)

/-- 8xy5 and 8xy7: strictly greater (42_alu.md R168, R170; 90_conflicts.md C12). -/
def exceeds (X Y : Byte) : Bool := decide (X.toNat > Y.toNat)

/-- 8xy6: the bit shifted out at the right (42_alu.md R169). -/
def bitOutRight (Y : Byte) : Bool := Y.getLsbD 0

/-- 8xyE: the bit shifted out at the left (42_alu.md R171). -/
def bitOutLeft (Y : Byte) : Bool := Y.getLsbD 7

/-- `VF <- flag`. -/
def setFlag (c : Bool) (s : State) : State := setReg VF (flagByte c) s

/-- The result to Vx first, the flag to VF last: with x = F the flag stays (42_alu.md R160, 10_state.md R22). -/
def setResultAndFlag (x : Reg) (result : Byte) (flag : Bool) (s : State) : State :=
  setFlag flag (setReg x result s)

end Sys2Proof.Machine
end

