-- ==== Sys2Proof/Machine/Alu.lean ====
section
/-! DEFINITION. Register and arithmetic instructions (42_alu.md R160 to R191). None faults and none
changes pc (the fetch advance is done before). -/

namespace Sys2Proof.Machine

/-- 6xkk `LD Vx, kk` (R161). -/
def execLdImm (x : Reg) (kk : Byte) (s : State) : Host.Outcome State Fault Refusal :=
  .next (setReg x kk s)

/-- 7xkk `ADD Vx, kk` (R162): no flag. -/
def execAddImm (x : Reg) (kk : Byte) (s : State) : Host.Outcome State Fault Refusal :=
  .next (setReg x (s.reg x + kk) s)

/-- 8xy0 `LD Vx, Vy` (R163). -/
def execLdReg (x y : Reg) (s : State) : Host.Outcome State Fault Refusal :=
  .next (setReg x (s.reg y) s)

/-- 8xy1 `OR Vx, Vy` (R164): no flag. -/
def execOrReg (x y : Reg) (s : State) : Host.Outcome State Fault Refusal :=
  .next (setReg x (s.reg x ||| s.reg y) s)

/-- 8xy2 `AND Vx, Vy` (R165): no flag. -/
def execAndReg (x y : Reg) (s : State) : Host.Outcome State Fault Refusal :=
  .next (setReg x (s.reg x &&& s.reg y) s)

/-- 8xy3 `XOR Vx, Vy` (R166): no flag. -/
def execXorReg (x y : Reg) (s : State) : Host.Outcome State Fault Refusal :=
  .next (setReg x (s.reg x ^^^ s.reg y) s)

/-- 8xy4 `ADD Vx, Vy` (R167). -/
def execAddReg (x y : Reg) (s : State) : Host.Outcome State Fault Refusal :=
  .next (setResultAndFlag x (s.reg x + s.reg y) (carryOut (s.reg x) (s.reg y)) s)

/-- 8xy5 `SUB Vx, Vy` (R168). -/
def execSubReg (x y : Reg) (s : State) : Host.Outcome State Fault Refusal :=
  .next (setResultAndFlag x (s.reg x - s.reg y) (exceeds (s.reg x) (s.reg y)) s)

/-- 8xy6 `SHR Vx, Vy` (R169): the source is Vy. -/
def execShrReg (x y : Reg) (s : State) : Host.Outcome State Fault Refusal :=
  .next (setResultAndFlag x (s.reg y >>> 1) (bitOutRight (s.reg y)) s)

/-- 8xy7 `SUBN Vx, Vy` (R170). -/
def execSubnReg (x y : Reg) (s : State) : Host.Outcome State Fault Refusal :=
  .next (setResultAndFlag x (s.reg y - s.reg x) (exceeds (s.reg y) (s.reg x)) s)

/-- 8xyE `SHL Vx, Vy` (R171): the source is Vy. -/
def execShlReg (x y : Reg) (s : State) : Host.Outcome State Fault Refusal :=
  .next (setResultAndFlag x (s.reg y <<< 1) (bitOutLeft (s.reg y)) s)

/-- Cxkk `RND Vx, kk` (R190): the draw is the byte sampled in this cycle (10_state.md R43). -/
def execRnd (x : Reg) (kk : Byte) (s : State) : Host.Outcome State Fault Refusal :=
  .next (setReg x (s.rnd &&& kk) s)

end Sys2Proof.Machine
end

