-- ==== Sys2Proof/Decode.lean ====
section
/-! DEFINITION. Instruction words to instructions and back (30_encoding.md R82 to R91). -/

namespace Sys2Proof

/-! ## Fields (30_encoding.md R84) -/

/-- `n0 = insn[15:12]`, the primary discriminator. -/
def fieldN0 (insn : Word) : Nat := (insn.extractLsb' 12 4).toNat

/-- `x = n1 = insn[11:8]`, a register index. -/
def fieldX (insn : Word) : Reg := (insn.extractLsb' 8 4).toFin

/-- `y = n2 = insn[7:4]`, a register index. -/
def fieldY (insn : Word) : Reg := (insn.extractLsb' 4 4).toFin

/-- `n = n3 = insn[3:0]`, a sub-opcode or a count. -/
def fieldN (insn : Word) : Nat := (insn.extractLsb' 0 4).toNat

/-- `kk = insn[7:0]`, an immediate or a sub-opcode. -/
def fieldKK (insn : Word) : Byte := insn.extractLsb' 0 8

/-- `nnn = insn[11:0]`, an address. -/
def fieldNNN (insn : Word) : Addr12 := insn.extractLsb' 0 12

/-! ## Decoder -/

/-- Why the decoder gives no instruction. -/
inductive Reject where
  /-- The word matches no row of the opcode table (30_encoding.md R88, R90). The cycle reports it
  and goes on; it is no fault. -/
  | unknownOpcode (insn : Word)
  /-- Fewer than 2 bytes were given; an instruction is exactly 2 bytes (30_encoding.md R91).
  A fetch never gives fewer. -/
  | tooShort
  deriving DecidableEq, Repr

/-- The 8 rows: the sub-opcode is n (30_encoding.md R85 rows 10 to 18). -/
def dispatch8 (x y : Reg) (n : Nat) : Option Instr :=
  if n = 0x0 then some (.ldReg x y)
  else if n = 0x1 then some (.orReg x y)
  else if n = 0x2 then some (.andReg x y)
  else if n = 0x3 then some (.xorReg x y)
  else if n = 0x4 then some (.addReg x y)
  else if n = 0x5 then some (.subReg x y)
  else if n = 0x6 then some (.shrReg x y)
  else if n = 0x7 then some (.subnReg x y)
  else if n = 0xE then some (.shlReg x y)
  else none

/-- The E rows: the sub-opcode is kk (30_encoding.md R85 rows 24 and 25). -/
def dispatchE (x : Reg) (kk : Byte) : Option Instr :=
  if kk = 0x9E then some (.skp x)
  else if kk = 0xA1 then some (.sknp x)
  else none

/-- The F rows: the sub-opcode is kk (30_encoding.md R85 rows 26 to 34). -/
def dispatchF (x : Reg) (kk : Byte) : Option Instr :=
  if kk = 0x07 then some (.ldVxDt x)
  else if kk = 0x0A then some (.ldVxK x)
  else if kk = 0x15 then some (.ldDtVx x)
  else if kk = 0x18 then some (.ldStVx x)
  else if kk = 0x1E then some (.addI x)
  else if kk = 0x29 then some (.ldF x)
  else if kk = 0x33 then some (.ldB x)
  else if kk = 0x55 then some (.storeRegs x)
  else if kk = 0x65 then some (.loadRegs x)
  else none

/-- The dispatch of the fields against the opcode table (30_encoding.md R85, R86). The 0 rows fix
all of `nnn` (R90). -/
def dispatch (n0 : Nat) (x y : Reg) (n : Nat) (kk : Byte) (nnn : Addr12) : Option Instr :=
  match n0 with
  | 0x0 => if nnn = 0x0E0 then some .cls else if nnn = 0x0EE then some .ret else none
  | 0x1 => some (.jp nnn)
  | 0x2 => some (.call nnn)
  | 0x3 => some (.seImm x kk)
  | 0x4 => some (.sneImm x kk)
  | 0x5 => if n = 0 then some (.seReg x y) else none
  | 0x6 => some (.ldImm x kk)
  | 0x7 => some (.addImm x kk)
  | 0x8 => dispatch8 x y n
  | 0x9 => if n = 0 then some (.sneReg x y) else none
  | 0xA => some (.ldI nnn)
  | 0xB => some (.jpV0 nnn)
  | 0xC => some (.rnd x kk)
  | 0xD => some (.drw x y n)
  | 0xE => dispatchE x kk
  | 0xF => dispatchF x kk
  | _ => none

/-- The instruction a word stands for, or its rejection by name. Total on all 65,536 words
(30_encoding.md R86). -/
def decode (insn : Word) : Except Reject Instr :=
  match dispatch (fieldN0 insn) (fieldX insn) (fieldY insn) (fieldN insn) (fieldKK insn)
      (fieldNNN insn) with
  | some i => .ok i
  | none => .error (.unknownOpcode insn)

/-- `insn = MemRead(pc, 1) : MemRead(pc + 1, 1)`: the byte at the lower address is the more
significant (30_encoding.md R82, 20_memory.md R64). -/
def wordOfBytes (hi lo : Byte) : Word := hi ++ lo

/-- Decode the first 2 bytes, lowest address first, and give back the rest (30_encoding.md R91). -/
def decodeBytes : List Byte → Except Reject (Instr × List Byte)
  | hi :: lo :: rest => (decode (wordOfBytes hi lo)).map (·, rest)
  | _ => .error .tooShort

/-! ## Encoder -/

/-- A register index as a 4-bit field. -/
def regField (r : Reg) : BitVec 4 := BitVec.ofFin r

/-- `n0 : nnn` -/
def packNNN (n0 : BitVec 4) (nnn : Addr12) : Word := n0 ++ nnn

/-- `n0 : x : kk` -/
def packXKK (n0 : BitVec 4) (x : Reg) (kk : Byte) : Word := n0 ++ (regField x ++ kk)

/-- `n0 : x : y : n` -/
def packXYN (n0 : BitVec 4) (x y : Reg) (n : BitVec 4) : Word :=
  n0 ++ (regField x ++ (regField y ++ n))

/-- The word of an instruction, from the patterns of 30_encoding.md R85. -/
def encode : Instr → Word
  | .cls => 0x00E0
  | .ret => 0x00EE
  | .jp nnn => packNNN 0x1 nnn
  | .call nnn => packNNN 0x2 nnn
  | .seImm x kk => packXKK 0x3 x kk
  | .sneImm x kk => packXKK 0x4 x kk
  | .seReg x y => packXYN 0x5 x y 0x0
  | .ldImm x kk => packXKK 0x6 x kk
  | .addImm x kk => packXKK 0x7 x kk
  | .ldReg x y => packXYN 0x8 x y 0x0
  | .orReg x y => packXYN 0x8 x y 0x1
  | .andReg x y => packXYN 0x8 x y 0x2
  | .xorReg x y => packXYN 0x8 x y 0x3
  | .addReg x y => packXYN 0x8 x y 0x4
  | .subReg x y => packXYN 0x8 x y 0x5
  | .shrReg x y => packXYN 0x8 x y 0x6
  | .subnReg x y => packXYN 0x8 x y 0x7
  | .shlReg x y => packXYN 0x8 x y 0xE
  | .sneReg x y => packXYN 0x9 x y 0x0
  | .ldI nnn => packNNN 0xA nnn
  | .jpV0 nnn => packNNN 0xB nnn
  | .rnd x kk => packXKK 0xC x kk
  | .drw x y n => packXYN 0xD x y (BitVec.ofNat 4 n)
  | .skp x => packXKK 0xE x 0x9E
  | .sknp x => packXKK 0xE x 0xA1
  | .ldVxDt x => packXKK 0xF x 0x07
  | .ldVxK x => packXKK 0xF x 0x0A
  | .ldDtVx x => packXKK 0xF x 0x15
  | .ldStVx x => packXKK 0xF x 0x18
  | .addI x => packXKK 0xF x 0x1E
  | .ldF x => packXKK 0xF x 0x29
  | .ldB x => packXKK 0xF x 0x33
  | .storeRegs x => packXKK 0xF x 0x55
  | .loadRegs x => packXKK 0xF x 0x65

/-- The more significant byte, stored at the lower address (20_memory.md R64). -/
def highByte (insn : Word) : Byte := insn.extractLsb' 8 8

/-- The less significant byte, stored at the higher address (20_memory.md R64). -/
def lowByte (insn : Word) : Byte := insn.extractLsb' 0 8

/-- A word's bytes as memory holds them, lowest address first (20_memory.md R64). -/
def bytesOfWord (insn : Word) : List Byte := [highByte insn, lowByte insn]

/-! ## The opcode table as match and mask (30_encoding.md R85) -/

/-- One row: an instruction word matches it when `insn AND mask = fixed`. -/
structure OpcodeRow where
  fixed : Word
  mask : Word
  deriving DecidableEq, Repr

/-- An instruction matches a row when `insn AND mask = match` (30_encoding.md R85). -/
def OpcodeRow.matches (r : OpcodeRow) (insn : Word) : Bool := insn &&& r.mask == r.fixed

/-- Rows 1 to 17 of the table. -/
def opcodeRowsLow : List OpcodeRow :=
  [⟨0x00E0, 0xFFFF⟩, ⟨0x00EE, 0xFFFF⟩, ⟨0x1000, 0xF000⟩, ⟨0x2000, 0xF000⟩, ⟨0x3000, 0xF000⟩,
   ⟨0x4000, 0xF000⟩, ⟨0x5000, 0xF00F⟩, ⟨0x6000, 0xF000⟩, ⟨0x7000, 0xF000⟩, ⟨0x8000, 0xF00F⟩,
   ⟨0x8001, 0xF00F⟩, ⟨0x8002, 0xF00F⟩, ⟨0x8003, 0xF00F⟩, ⟨0x8004, 0xF00F⟩, ⟨0x8005, 0xF00F⟩,
   ⟨0x8006, 0xF00F⟩, ⟨0x8007, 0xF00F⟩]

/-- Rows 18 to 34 of the table. -/
def opcodeRowsHigh : List OpcodeRow :=
  [⟨0x800E, 0xF00F⟩, ⟨0x9000, 0xF00F⟩, ⟨0xA000, 0xF000⟩, ⟨0xB000, 0xF000⟩, ⟨0xC000, 0xF000⟩,
   ⟨0xD000, 0xF000⟩, ⟨0xE09E, 0xF0FF⟩, ⟨0xE0A1, 0xF0FF⟩, ⟨0xF007, 0xF0FF⟩, ⟨0xF00A, 0xF0FF⟩,
   ⟨0xF015, 0xF0FF⟩, ⟨0xF018, 0xF0FF⟩, ⟨0xF01E, 0xF0FF⟩, ⟨0xF029, 0xF0FF⟩, ⟨0xF033, 0xF0FF⟩,
   ⟨0xF055, 0xF0FF⟩, ⟨0xF065, 0xF0FF⟩]

/-- The 34 rows of 30_encoding.md R85, in order. The decoder does not use them; they are the
table's second spelling, for claims that the two agree. -/
def opcodeTable : List OpcodeRow := opcodeRowsLow ++ opcodeRowsHigh

/-! ## The host's entry -/

/-- The word the opcode table's numbering gives: bits at and above `nbits` are 0. -/
def tableWord (nbits w : Nat) : Word := BitVec.ofNat 16 (w % 2 ^ nbits)

/-- The instruction the decoder reads from a word numbered as spec/opcode_table.json numbers it:
laid out in memory order, then decoded. -/
def decodeTableWord (nbits w : Nat) : Option Instr :=
  match decodeBytes (bytesOfWord (tableWord nbits w)) with
  | .ok (i, _) => some i
  | .error _ => none

end Sys2Proof
end

