-- ==== Sys2Proof/Machine/Control.lean ====
section
/-! DEFINITION. Control flow and the call stack (41_control_flow.md R130 to R141). -/

namespace Sys2Proof.Machine

/-- 00EE `RET` (R130). -/
def execRet (s : State) : Host.Outcome State Fault Refusal :=
  match pop s with
  | none => raiseExecute .stackUnderflow (encode .ret) 0 s
  | some (target, s') => .next (jump target s')

/-- 1nnn `JP nnn` (R131). -/
def execJp (nnn : Addr12) (s : State) : Host.Outcome State Fault Refusal :=
  .next (jump (addrImm nnn) s)

/-- 2nnn `CALL nnn` (R132): pushes the already-advanced pc. -/
def execCall (nnn : Addr12) (s : State) : Host.Outcome State Fault Refusal :=
  match push s.pc s with
  | none => raiseExecute .stackOverflow (encode (.call nnn)) 0 s
  | some s' => .next (jump (addrImm nnn) s')

/-- 3xkk `SE Vx, kk` (R133). -/
def execSeImm (x : Reg) (kk : Byte) (s : State) : Host.Outcome State Fault Refusal :=
  .next (skipIf (s.reg x == kk) s)

/-- 4xkk `SNE Vx, kk` (R134). -/
def execSneImm (x : Reg) (kk : Byte) (s : State) : Host.Outcome State Fault Refusal :=
  .next (skipIf (s.reg x != kk) s)

/-- 5xy0 `SE Vx, Vy` (R135). -/
def execSeReg (x y : Reg) (s : State) : Host.Outcome State Fault Refusal :=
  .next (skipIf (s.reg x == s.reg y) s)

/-- 9xy0 `SNE Vx, Vy` (R136). -/
def execSneReg (x y : Reg) (s : State) : Host.Outcome State Fault Refusal :=
  .next (skipIf (s.reg x != s.reg y) s)

/-- Bnnn `JP V0, nnn` (R137): not reduced modulo 0x1000. -/
def execJpV0 (nnn : Addr12) (s : State) : Host.Outcome State Fault Refusal :=
  .next (jump (addrImm nnn + zextByte (s.reg 0)) s)

end Sys2Proof.Machine
end

