-- ==== Sys2Proof/Machine/Display.lean ====
section
/-! DEFINITION. The display instructions and the sprite composer (40_display.md R110 to R119). -/

namespace Sys2Proof.Machine

/-- The framebuffer during a draw, and whether this draw has turned a pixel off (40_display.md R111). -/
structure Canvas where
  fb : Vector PixelRow 32
  collision : Bool
  deriving DecidableEq, Repr

/-- `Fb[row][col]`; a place off the display reads as 0 and is never asked for (10_state.md R33). -/
def pixel (fb : Vector PixelRow 32) (row col : Nat) : Bool :=
  if h : row < 32 then fb[row].getLsbD col else false

/-- `Fb[row][col] <- Fb[row][col] XOR 1`. -/
def flipPixel (fb : Vector PixelRow 32) (row col : Nat) : Vector PixelRow 32 :=
  if h : row < 32 then fb.set row (fb[row] ^^^ (1#64 <<< col)) else fb

/-- One sprite pixel: clipped at the right edge, transparent where the sprite bit is 0, else XOR
with collision (40_display.md R114, R115). -/
def drawPixel (row col : Nat) (bit : Bool) (cv : Canvas) : Canvas :=
  if displayWidth ≤ col then cv
  else if bit then
    { fb := flipPixel cv.fb row col, collision := cv.collision || pixel cv.fb row col }
  else cv

/-- The first `k` pixels of a sprite row from column X: bit 7 is the leftmost (40_display.md R114). -/
def drawBits (row X : Nat) (b : Byte) : Nat → Canvas → Canvas
  | 0, cv => cv
  | c + 1, cv => drawPixel row (X + c) (b.getLsbD (7 - c)) (drawBits row X b c cv)

/-- One sprite row, skipped when off the display (40_display.md R113). -/
def drawRow (row X : Nat) (b : Byte) (cv : Canvas) : Canvas :=
  if displayHeight ≤ row then cv else drawBits row X b 8 cv

/-- The sprite's rows, top row first (40_display.md R111). -/
def drawRows (X : Nat) : Nat → List Byte → Canvas → Canvas
  | _, [], cv => cv
  | row, b :: bs, cv => drawRows X (row + 1) bs (drawRow row X b cv)

/-- The composer's contract `draw(x, y, spriteBytes)` (40_display.md R111). -/
def composite (X Y : Byte) (sprite : List Byte) (fb : Vector PixelRow 32) : Canvas :=
  drawRows X.toNat Y.toNat sprite { fb := fb, collision := false }

/-- A framebuffer written. -/
def setFb (fb : Vector PixelRow 32) (s : State) : State := { s with fb := fb }

/-- 00E0 `CLS` (40_display.md R110). -/
def execCls (s : State) : Host.Outcome State Fault Refusal :=
  .next (setFb (Vector.replicate 32 0) s)

/-- Dxyn `DRW Vx, Vy, n` (40_display.md R111, R112, R116, R117): the range is checked before any effect,
the flag is written last. -/
def execDrw (x y : Reg) (n : Nat) (s : State) : Host.Outcome State Fault Refusal :=
  let base := s.I.toNat
  if rangeFaults base n then
    raiseExecute .memoryFault (encode (.drw x y n)) (BitVec.ofNat 16 (lowestOutside base)) s
  else
    let drawn := composite (s.reg x) (s.reg y) (s.mem.readList base n) s.fb
    .next (setFlag drawn.collision (setFb drawn.fb s))

end Sys2Proof.Machine
end

