-- ==== Sys2Proof/Machine/Index.lean ====
section
/-! DEFINITION. The index register and memory instructions (43_index_memory.md R200 to R206). Every
MemoryFault comes before the first write (20_memory.md R62). -/

namespace Sys2Proof.Machine

/-- Annn `LD I, nnn` (R200). -/
def execLdI (nnn : Addr12) (s : State) : Host.Outcome State Fault Refusal :=
  .next (setI (addrImm nnn) s)

/-- Fx1E `ADD I, Vx` (R201): the sum is computed without bound, then checked. -/
def execAddI (x : Reg) (s : State) : Host.Outcome State Fault Refusal :=
  let newI := s.I.toNat + (s.reg x).toNat
  if newI > addrMax then
    raiseExecute .memoryFault (encode (.addI x)) (BitVec.ofNat 16 newI) s
  else .next (setI (BitVec.ofNat 16 newI) s)

/-- Fx29 `LD F, Vx` (R202). -/
def execLdF (x : Reg) (s : State) : Host.Outcome State Fault Refusal :=
  .next (setI (glyphAddr (s.reg x)) s)

/-- Fx33 `LD B, Vx` (R203). -/
def execLdB (x : Reg) (s : State) : Host.Outcome State Fault Refusal :=
  let base := s.I.toNat
  if base + 2 > addrMax then raiseExecute .memoryFault (encode (.ldB x)) 0x1000 s
  else .next (setMem (s.mem.writeList base (bcdDigits (s.reg x))) s)

/-- Fx55 `LD [I], Vx` (R204). -/
def execStoreRegs (x : Reg) (s : State) : Host.Outcome State Fault Refusal :=
  let base := s.I.toNat
  if blockFaults s.cfg.postInc base x then
    raiseExecute .memoryFault (encode (.storeRegs x)) 0x1000 s
  else
    .next (setI (BitVec.ofNat 16 (base + x.val + 1))
      (setMem (s.mem.writeList base (regsUpTo s.V x)) s))

/-- Fx65 `LD Vx, [I]` (R205). -/
def execLoadRegs (x : Reg) (s : State) : Host.Outcome State Fault Refusal :=
  let base := s.I.toNat
  if blockFaults s.cfg.postInc base x then
    raiseExecute .memoryFault (encode (.loadRegs x)) 0x1000 s
  else
    .next (setI (BitVec.ofNat 16 (base + x.val + 1))
      { s with V := fillRegs s.V 0 (s.mem.readList base (x.val + 1)) })

end Sys2Proof.Machine
end

