-- ==== Sys2Proof/Machine/TimerInput.lean ====
section
/-! DEFINITION. Timer and key instructions (44_timers_input.md R230 to R247). -/

namespace Sys2Proof.Machine

/-- Fx07 `LD Vx, DT` (R230). -/
def execLdVxDt (x : Reg) (s : State) : Host.Outcome State Fault Refusal :=
  .next (setReg x s.dt s)

/-- Fx15 `LD DT, Vx` (R231). -/
def execLdDtVx (x : Reg) (s : State) : Host.Outcome State Fault Refusal :=
  .next (setDt (s.reg x) s)

/-- Fx18 `LD ST, Vx` (R232). -/
def execLdStVx (x : Reg) (s : State) : Host.Outcome State Fault Refusal :=
  .next (setSt (s.reg x) s)

/-- `k > 15`: no such key (R242). -/
def keyIndexFaults (k : Byte) : Bool := decide (k.toNat > 15)

/-- Ex9E `SKP Vx` (R240, R242). -/
def execSkp (x : Reg) (s : State) : Host.Outcome State Fault Refusal :=
  let k := s.reg x
  if keyIndexFaults k then raiseExecute .keyIndexFault (encode (.skp x)) (zextByte k) s
  else .next (skipIf (keyDown s.keys k.toNat) s)

/-- ExA1 `SKNP Vx` (R241, R242). -/
def execSknp (x : Reg) (s : State) : Host.Outcome State Fault Refusal :=
  let k := s.reg x
  if keyIndexFaults k then raiseExecute .keyIndexFault (encode (.sknp x)) (zextByte k) s
  else .next (skipIf (!keyDown s.keys k.toNat) s)

/-- The wait of Fx0A in `suspend` mode (R245): with no newly pressed key pc goes back to the
instruction's own address, else Vx takes the lowest one's index. -/
def waitForKey (x : Reg) (s : State) : State :=
  match lowestNewKey s.keys s.keyPrev with
  | none => jump (insnAddr s) s
  | some k => setReg x (BitVec.ofNat 8 k) s

/-- Fx0A `LD Vx, K` (R245 in `suspend` mode, R246 in `nop` mode). -/
def execLdVxK (x : Reg) (s : State) : Host.Outcome State Fault Refusal :=
  match s.cfg.keyWait with
  | .suspend => .next (waitForKey x s)
  | .nop => .next (report .keyWaitUnsupported (insnAddr s) (encode (.ldVxK x)) s)

end Sys2Proof.Machine
end

