-- ==== Sys2Proof/Machine/Cycle.lean ====
section
/-! DEFINITION. The atomic steps of the machine: the instruction cycle (30_encoding.md R80), the timer
tick (44_timers_input.md R250), the cancellation check (60_exceptions.md R280), and what each request of
the outside world does (60_exceptions.md R285). -/

namespace Sys2Proof.Machine

/-! ## The instruction cycle -/

/-- The start of a cycle: the ports `keys` and `rnd` are sampled (10_state.md R36, R43). -/
def sample (keys : KeySet) (rnd : Byte) (s : State) : State := { s with keys := keys, rnd := rnd }

/-- `pc + 1 > 0xFFF`, on unbounded naturals (30_encoding.md R81). -/
def fetchFaults (pc : Word) : Bool := decide (pc.toNat + 1 > addrMax)

/-- The fault_addr of a fetch fault: pc if pc > 0xFFF, else pc + 1 (30_encoding.md R80). -/
def fetchFaultAddr (pc : Word) : Word := if pc.toNat > addrMax then pc else pc + 1

/-- The word at pc (30_encoding.md R82). -/
def fetchWord (s : State) : Word := wordOfBytes (s.mem.read s.pc.toNat) (s.mem.read (s.pc.toNat + 1))

/-- `Execute(insn, a, rnd)`: the matching row's meaning, or the report of rule R88. -/
def execute (insn : Word) (s : State) : Host.Outcome State Fault Refusal :=
  match decode insn with
  | .ok i => exec i s
  | .error _ => .next (report .unknownOpcode (insnAddr s) insn s)

/-- `KeyPrev <- Keys`, at the end of a cycle that did not fault (10_state.md R37). -/
def keepKeys (s : State) : State := { s with keyPrev := s.keys }

/-- The end of a cycle: a fault ends it before `KeyPrev <- Keys` (30_encoding.md R80). -/
def finishCycle : Host.Outcome State Fault Refusal → Host.Outcome State Fault Refusal
  | .next s => .next (keepKeys s)
  | .fault f => .fault f
  | .refused r => .refused r

/-- Fetch, advance, execute, from a state whose inputs are sampled. -/
def fetchExecute (s : State) : Host.Outcome State Fault Refusal :=
  if fetchFaults s.pc then raise .memoryFault .fetch s.pc 0 (fetchFaultAddr s.pc) s
  else finishCycle (execute (fetchWord s) (advance s))

/-- `InstructionStep(keys_in, rnd_in)` (30_encoding.md R80). -/
def cycle (keys : KeySet) (rnd : Byte) (s : State) : Host.Outcome State Fault Refusal :=
  fetchExecute (sample keys rnd s)

/-! ## The timer tick -/

/-- `if T > 0: T <- T - 1` (44_timers_input.md R250). -/
def countDown (t : Byte) : Byte := if t = 0 then 0 else t - 1

/-- Both timers in one atomic step, only while RUNNING (44_timers_input.md R250, R253). -/
def timerTick (s : State) : State :=
  if s.runState = .running then { s with dt := countDown s.dt, st := countDown s.st } else s

/-! ## Cancellation -/

/-- `cancel` is latched when it is asserted; a core that has ended its run ignores it
(60_exceptions.md R280, R268; log 6). -/
def latchCancel (s : State) : State :=
  if s.runState = .idle ∨ s.runState = .running then { s with cancelLatch := true } else s

/-- At a boundary, RUNNING with a cancel latched (60_exceptions.md R280). A reset that arrives there
comes first: it takes effect at once (70_reset_and_hazards.md R301). -/
def cancelDue (s : State) : Bool :=
  s.runState == .running && s.cancelLatch && s.agenda.head? != some .rst

/-- The cancellation check that finds a request: run_state becomes STOPPED, nothing else changes. -/
def honourCancel (s : State) : State := { s with runState := .stopped }

/-! ## Start, load, reset -/

/-- `start`: IDLE to RUNNING, ignored otherwise (70_reset_and_hazards.md R305). -/
def startRun (s : State) : State := if s.runState = .idle then { s with runState := .running } else s

/-- `load_we`: one byte into Memory, ignored unless IDLE (20_memory.md R74). -/
def loadByte (addr : Addr12) (data : Byte) (s : State) : State :=
  if s.runState = .idle then setMem (s.mem.write addr.toNat data) s else s

/-- `rst` in any state: every piece of state at its reset value (70_reset_and_hazards.md R300, R301). The
parameters stay; the report history is no register and reset clears nothing there (10_state.md R40); the
requests still to come, the level of `step` and the count of free values used are not the machine's
(logs 2, 3, 4, 5, 7). -/
def rstState (s : State) : State :=
  { State.resetWith s.cfg with
    events := s.events
    agenda := s.agenda
    stepHeld := s.stepHeld
    freeIndex := s.freeIndex }

/-! ## Requests -/

/-- What one request does, delivered at an instruction boundary (60_exceptions.md R270, R285). `step` runs
a cycle only while RUNNING (30_encoding.md R80). -/
def deliver (r : Request) (s : State) : Host.Outcome State Fault Refusal :=
  match r with
  | .step keys rnd => if s.runState = .running then cycle keys rnd s else .next s
  | .tick => .next (timerTick s)
  | .cancel => .next (latchCancel s)
  | .start => .next (startRun s)
  | .rst => .next (rstState s)
  | .load addr data => .next (loadByte addr data s)

/-- With nothing queued, a `step` input that is held requests the next cycle, which a RUNNING core runs on
free inputs; with none requested, or in any other core, nothing runs (30_encoding.md R80; logs 3, 4). -/
def freeRun (s : State) : Host.Outcome State Fault Refusal :=
  if s.stepHeld = true ∧ s.runState = .running then
    cycle (Config.freeKeys s.freeIndex) (Config.freeRnd s.freeIndex)
      { s with freeIndex := s.freeIndex + 1 }
  else .next s

/-- The next request, or what the level of `step` asks for. -/
def serve (s : State) : Host.Outcome State Fault Refusal :=
  match s.agenda with
  | [] => freeRun s
  | r :: rest => deliver r { s with agenda := rest }

/-- One architectural step: a cancellation check that finds a request, else the next request
(00_scope.md R6, 60_exceptions.md R270, R280). -/
def boundaryStep (s : State) : Host.Outcome State Fault Refusal :=
  if cancelDue s then .next (honourCancel s) else serve s

/-- Where a word is placed so that the next fetch reads it: at pc, or at the entry point when pc is
outside what a fetch can read. -/
def placeAddr (s : State) : Nat := if fetchFaults s.pc then programBase else s.pc.toNat

/-- The state whose next step runs the given word: the word stored at pc, the core RUNNING, no cancel
latched, and the next cycle requested before anything else (log 9). -/
def placeWord (insn : Word) (s : State) : State :=
  { s with
    mem := s.mem.writeList (placeAddr s) (bytesOfWord insn)
    pc := BitVec.ofNat 16 (placeAddr s)
    runState := .running
    cancelLatch := false
    agenda := []
    stepHeld := true }

end Sys2Proof.Machine
end

