-- ==== Sys2Proof/Machine/Step.lean ====
section
/-! DEFINITION. One step of the machine. -/

namespace Sys2Proof.Machine

/-- One architectural step (00_scope.md R6). -/
def step (s : State) : Host.Outcome State Fault Refusal := boundaryStep s

/-- `s` with the table's word `w` of `nbits` bits placed where the next step fetches. -/
def State.withFetchWord (s : State) (nbits w : Nat) : State := placeWord (tableWord nbits w) s

end Sys2Proof.Machine
end

