-- ==== Sys2Proof/Machine/Assembly.lean ====
section
/-! DEFINITION. The assembler syntax of 30_encoding.md R92 as mnemonics and operand tokens. Notation only: no
step uses it. Tokens instead of text, so that no spelling of numbers is fixed (log 15). -/

namespace Sys2Proof.Machine

/-- The mnemonics of 30_encoding.md R92. `word` stands for `.word`, the spelling of an unknown word. -/
inductive Mnemonic where
  | CLS | RET | JP | CALL | SE | SNE | LD | ADD | OR | AND | XOR | SUB | SHR | SUBN | SHL | RND | DRW
  | SKP | SKNP | word
  deriving DecidableEq, Repr

/-- One written operand. -/
inductive Token where
  | reg (r : Reg)
  | imm (kk : Byte)
  | addr (nnn : Addr12)
  | count (n : Nat)
  | raw (w : Word)
  | I | indirectI | DT | ST | K | F | B
  deriving DecidableEq, Repr

/-- One written line. -/
structure Line where
  mnemonic : Mnemonic
  operands : List Token
  deriving DecidableEq, Repr

/-- An instruction as rule R92 writes it. -/
def asmOf : Instr → Line
  | .cls => ⟨.CLS, []⟩
  | .ret => ⟨.RET, []⟩
  | .jp nnn => ⟨.JP, [.addr nnn]⟩
  | .call nnn => ⟨.CALL, [.addr nnn]⟩
  | .seImm x kk => ⟨.SE, [.reg x, .imm kk]⟩
  | .sneImm x kk => ⟨.SNE, [.reg x, .imm kk]⟩
  | .seReg x y => ⟨.SE, [.reg x, .reg y]⟩
  | .ldImm x kk => ⟨.LD, [.reg x, .imm kk]⟩
  | .addImm x kk => ⟨.ADD, [.reg x, .imm kk]⟩
  | .ldReg x y => ⟨.LD, [.reg x, .reg y]⟩
  | .orReg x y => ⟨.OR, [.reg x, .reg y]⟩
  | .andReg x y => ⟨.AND, [.reg x, .reg y]⟩
  | .xorReg x y => ⟨.XOR, [.reg x, .reg y]⟩
  | .addReg x y => ⟨.ADD, [.reg x, .reg y]⟩
  | .subReg x y => ⟨.SUB, [.reg x, .reg y]⟩
  | .shrReg x y => ⟨.SHR, [.reg x, .reg y]⟩
  | .subnReg x y => ⟨.SUBN, [.reg x, .reg y]⟩
  | .shlReg x y => ⟨.SHL, [.reg x, .reg y]⟩
  | .sneReg x y => ⟨.SNE, [.reg x, .reg y]⟩
  | .ldI nnn => ⟨.LD, [.I, .addr nnn]⟩
  | .jpV0 nnn => ⟨.JP, [.reg 0, .addr nnn]⟩
  | .rnd x kk => ⟨.RND, [.reg x, .imm kk]⟩
  | .drw x y n => ⟨.DRW, [.reg x, .reg y, .count n]⟩
  | .skp x => ⟨.SKP, [.reg x]⟩
  | .sknp x => ⟨.SKNP, [.reg x]⟩
  | .ldVxDt x => ⟨.LD, [.reg x, .DT]⟩
  | .ldVxK x => ⟨.LD, [.reg x, .K]⟩
  | .ldDtVx x => ⟨.LD, [.DT, .reg x]⟩
  | .ldStVx x => ⟨.LD, [.ST, .reg x]⟩
  | .addI x => ⟨.ADD, [.I, .reg x]⟩
  | .ldF x => ⟨.LD, [.F, .reg x]⟩
  | .ldB x => ⟨.LD, [.B, .reg x]⟩
  | .storeRegs x => ⟨.LD, [.indirectI, .reg x]⟩
  | .loadRegs x => ⟨.LD, [.reg x, .indirectI]⟩

/-- A word as rule R92 writes it: its instruction, or `.word` for an unknown one. -/
def disassemble (insn : Word) : Line :=
  match decode insn with
  | .ok i => asmOf i
  | .error _ => ⟨.word, [.raw insn]⟩

end Sys2Proof.Machine
end

