-- ==== Sys2Proof/Machine/Ports.lean ====
section
/-! DEFINITION. What the outside world sees and hands in (10_state.md R42, 60_exceptions.md R285): the
output ports as read-only functions of State, the order of requests of one clock, the launch. -/

namespace Sys2Proof.Machine

/-! ## Output ports -/

/-- `run_state` as the host reads it (10_state.md R38). -/
def RunState.code : RunState → BitVec 2
  | .idle => 0
  | .running => 1
  | .halted => 2
  | .stopped => 3

/-- A cause's code, in `fault_cause` and `ev_code` (60_exceptions.md R260). -/
def Cause.code : Cause → BitVec 3
  | .none => 0
  | .unknownOpcode => 1
  | .stackUnderflow => 2
  | .stackOverflow => 3
  | .memoryFault => 4
  | .keyIndexFault => 5
  | .keyWaitUnsupported => 6
  | .reserved => 7

/-- `fault_stage`: 0 = fetch, 1 = execute (10_state.md R39). -/
def Stage.code : Stage → BitVec 1
  | .fetch => 0
  | .execute => 1

/-- `fb_data` for `fb_row`: bit c is Fb[fb_row][c] (10_state.md R35, R42). -/
def fbData (s : State) (row : Fin 32) : PixelRow := s.fb[row.val]

/-- `sound_active = (ST != 0)` (10_state.md R32). -/
def soundActive (s : State) : Bool := s.st != 0

/-- `st_value` (10_state.md R42). -/
def stValue (s : State) : Byte := s.st

/-- `ev_valid`, `ev_code`, `ev_pc`, `ev_insn` of the step from `s` to `t`: the reports it appended
(10_state.md R40). -/
def newReports (s t : State) : List EventRecord := t.events.drop s.events.length

/-! ## Requests of one clock -/

/-- `cancel`, `step` and `timer_tick` asserted in the same clock, in the order they take effect
(60_exceptions.md R270, 44_timers_input.md R252). -/
def clockRequests (cancel step tick : Bool) (keys : KeySet) (rnd : Byte) : List Request :=
  (if cancel then [.cancel] else []) ++ (if step then [.step keys rnd] else []) ++
    (if tick then [.tick] else [])

/-! ## Loading and launch (70_reset_and_hazards.md R303, R304) -/

/-- The loader's byte writes from address `a` up. -/
def loadRequests : Nat → List Byte → List Request
  | _, [] => []
  | a, b :: bs => .load (BitVec.ofNat 12 a) b :: loadRequests (a + 1) bs

/-- Font, program image cut to the program region, start (60_exceptions.md R285). -/
def launchRequests (font : Vector Byte 80) (program : List Byte) : List Request :=
  loadRequests fontBase font.toList ++ (loadRequests programBase (program.take programCapacity) ++ [.start])

/-- Memory after both loads. -/
def launchMemory (font : Vector Byte 80) (program : List Byte) : Memory :=
  (Memory.writeList [] fontBase font.toList).writeList programBase (program.take programCapacity)

/-- `Launch(FONT_BYTES, PROGRAM)` (70_reset_and_hazards.md R303), for given parameters. The font is an
argument: the spec gives no glyph bytes (91_not_in_source.md N5). -/
def launchWith (c : Config) (font : Vector Byte 80) (program : List Byte) : State :=
  { State.resetWith c with mem := launchMemory font program, runState := .running }

/-- The launch state of this hardware. -/
def launch (font : Vector Byte 80) (program : List Byte) : State := launchWith Config.default font program

end Sys2Proof.Machine
end

