-- ==== Sys2Proof/Safety.lean ====
section
/-! DEFINITION. The terms claims are stated in: the machine's invariant, the ends of a run, what an instruction
may change and raise. -/

namespace Sys2Proof.Machine

/-! ## The invariant -/

/-- The largest value of I (10_state.md R24; under `lenient` 92_eei_decisions.md, open parameters). -/
def indexMax : PostIncCheck → Nat
  | .strict => 0xFFF
  | .lenient => 0x1000

/-- What every state at an instruction boundary satisfies. -/
structure State.Inv (s : State) : Prop where
  /-- Memory is canonical and holds only existing addresses (20_memory.md R60). -/
  memory : s.mem.wf = true
  /-- 10_state.md R24. -/
  index : s.I.toNat ≤ indexMax s.cfg.postInc
  /-- 10_state.md R27: "pc can never exceed 0x10FE". -/
  pcRange : s.pc.toNat ≤ 0x10FE
  /-- 10_state.md R29: any capacity of at least 16. -/
  capacity : s.cfg.legal
  /-- 10_state.md R29: the stack holds STACK_CAPACITY entries. -/
  stackSize : s.stack.length = s.cfg.stackCapacity
  /-- 10_state.md R29: 0 <= SP <= STACK_CAPACITY. -/
  depth : s.sp ≤ s.cfg.stackCapacity
  /-- 10_state.md R27: a return can pop up to 0x1000. -/
  returns : ∀ w ∈ s.stack, w.toNat ≤ 0x1000
  /-- 10_state.md R39: the fault record is written only when a fatal fault is raised. -/
  noFault : s.runState ≠ .halted → s.fault = FaultRecord.zero
  /-- 60_exceptions.md R266, R267: a halted core's record names a fatal cause. -/
  faulted : s.runState = .halted → ∃ c : FatalCause, s.fault.cause = c.cause
  /-- 60_exceptions.md R260: only the two non-fatal conditions are reported. -/
  reports : ∀ e ∈ s.events, e.code = .unknownOpcode ∨ e.code = .keyWaitUnsupported

/-! ## Several steps -/

/-- `n` steps, stopping at the first fault or refusal (the same as the host's run: Laws/Cycle.lean). -/
def runSteps : Nat → State → Host.Outcome State Fault Refusal
  | 0, s => .next s
  | n + 1, s =>
    match step s with
    | .next t => runSteps n t
    | .fault f => .fault f
    | .refused r => .refused r

/-! ## The ends of a run (70_reset_and_hazards.md R310, R311) -/

/-- A final state: the run has ended (R310). -/
abbrev State.Final (s : State) : Prop := s.runState = .halted ∨ s.runState = .stopped

/-- `Spinning(s)`: RUNNING, and the word at pc is 0x1000 + pc, a jump to itself (R311). Not final. -/
abbrev State.Spinning (s : State) : Prop :=
  s.runState = .running ∧ fetchFaults s.pc = false ∧ fetchWord s = 0x1000 + s.pc

/-- The next step is the request at the head of the agenda, at a boundary where no cancellation is due. -/
abbrev State.NextRequest (s : State) (r : Request) (rest : List Request) : Prop :=
  s.agenda = r :: rest ∧ cancelDue s = false

/-- A cycle is requested: by the request at the head of the agenda, or by `step` held with nothing queued
(30_encoding.md R80). -/
abbrev State.CycleRequested (s : State) : Prop :=
  (∃ keys rnd rest, s.agenda = .step keys rnd :: rest) ∨ (s.agenda = [] ∧ s.stepHeld = true)

/-! ## What a step leaves unchanged -/

/-- The kinds of state beside the general registers. -/
inductive Part where
  | index
  | pc
  | memory
  | display
  | stack
  | delay
  | sound
  | events
  | status
  | inputs
  deriving DecidableEq, Repr

/-- A part is the same in two states. Memory is compared byte by byte through its read. -/
def Part.same : Part → State → State → Prop
  | .index, s, t => t.I = s.I
  | .pc, s, t => t.pc = s.pc
  | .memory, s, t => ∀ a, t.mem.read a = s.mem.read a
  | .display, s, t => t.fb = s.fb
  | .stack, s, t => t.stack = s.stack ∧ t.sp = s.sp
  | .delay, s, t => t.dt = s.dt
  | .sound, s, t => t.st = s.st
  | .events, s, t => t.events = s.events
  | .status, s, t =>
    t.runState = s.runState ∧ t.fault = s.fault ∧ t.cancelLatch = s.cancelLatch ∧ t.cfg = s.cfg
  | .inputs, s, t =>
    t.keys = s.keys ∧ t.keyPrev = s.keyPrev ∧ t.rnd = s.rnd ∧ t.agenda = s.agenda ∧
      t.stepHeld = s.stepHeld ∧ t.freeIndex = s.freeIndex

/-- From `s` to `t` nothing changes but the registers in `W` and the listed parts. -/
def FrameBut (W : Reg → Prop) (parts : List Part) (s t : State) : Prop :=
  (∀ r, ¬W r → t.reg r = s.reg r) ∧ ∀ p, p ∉ parts → p.same s t

/-- No register. -/
abbrev noReg : Reg → Prop := fun _ => False

/-- `s` with a fatal fault taken: HALTED, the record written, nothing else changed (60_exceptions.md R266, R267). -/
def haltedWith (c : Cause) (stage : Stage) (pc insn addr : Word) (s : State) : State :=
  { s with runState := .halted, fault := ⟨c, stage, pc, insn, addr⟩ }

/-- The encoding of `i` lies in the row with this match and mask (30_encoding.md R85). -/
abbrev InRow (i : Instr) (fixed mask : Word) : Prop := encode i &&& mask = fixed

/-! ## What the spec lets an instruction do -/

/-- The one fatal cause an instruction can meet (60_exceptions.md R269). -/
def mayRaise : Instr → Option FatalCause
  | .ret => some .stackUnderflow
  | .call _ => some .stackOverflow
  | .drw _ _ _ | .addI _ | .ldB _ | .storeRegs _ | .loadRegs _ => some .memoryFault
  | .skp _ | .sknp _ => some .keyIndexFault
  | .cls | .jp _ | .seImm _ _ | .sneImm _ _ | .seReg _ _ | .ldImm _ _ | .addImm _ _ | .ldReg _ _
  | .orReg _ _ | .andReg _ _ | .xorReg _ _ | .addReg _ _ | .subReg _ _ | .shrReg _ _ | .subnReg _ _
  | .shlReg _ _ | .sneReg _ _ | .ldI _ | .jpV0 _ | .rnd _ _ | .ldVxDt _ | .ldVxK _ | .ldDtVx _
  | .ldStVx _ | .ldF _ => none

/-- The instructions that write VF as a flag: 8xy4 to 8xy7, 8xyE and Dxyn (10_state.md R21). -/
def writesFlag : Instr → Bool
  | .addReg _ _ | .subReg _ _ | .shrReg _ _ | .subnReg _ _ | .shlReg _ _ | .drw _ _ _ => true
  | .cls | .ret | .jp _ | .call _ | .seImm _ _ | .sneImm _ _ | .seReg _ _ | .ldImm _ _ | .addImm _ _
  | .ldReg _ _ | .orReg _ _ | .andReg _ _ | .xorReg _ _ | .sneReg _ _ | .ldI _ | .jpV0 _ | .rnd _ _
  | .skp _ | .sknp _ | .ldVxDt _ | .ldVxK _ | .ldDtVx _ | .ldStVx _ | .addI _ | .ldF _ | .ldB _
  | .storeRegs _ | .loadRegs _ => false

/-- The registers an instruction names as its destination, the flag register apart (42_alu.md,
43_index_memory.md R205, 44_timers_input.md). -/
def namesDest : Instr → Reg → Bool
  | .ldImm x _, r | .addImm x _, r | .ldReg x _, r | .orReg x _, r | .andReg x _, r | .xorReg x _, r
  | .addReg x _, r | .subReg x _, r | .shrReg x _, r | .subnReg x _, r | .shlReg x _, r | .rnd x _, r
  | .ldVxDt x, r | .ldVxK x, r => r == x
  | .loadRegs x, r => decide (r ≤ x)
  | .cls, _ | .ret, _ | .jp _, _ | .call _, _ | .seImm _ _, _ | .sneImm _ _, _ | .seReg _ _, _
  | .sneReg _ _, _ | .ldI _, _ | .jpV0 _, _ | .drw _ _ _, _ | .skp _, _ | .sknp _, _ | .ldDtVx _, _
  | .ldStVx _, _ | .addI _, _ | .ldF _, _ | .ldB _, _ | .storeRegs _, _ => false

/-- The instructions that read the key snapshot (10_state.md R36). -/
def readsKeys : Instr → Bool
  | .skp _ | .sknp _ | .ldVxK _ => true
  | .cls | .ret | .jp _ | .call _ | .seImm _ _ | .sneImm _ _ | .seReg _ _ | .ldImm _ _ | .addImm _ _
  | .ldReg _ _ | .orReg _ _ | .andReg _ _ | .xorReg _ _ | .addReg _ _ | .subReg _ _ | .shrReg _ _
  | .subnReg _ _ | .shlReg _ _ | .sneReg _ _ | .ldI _ | .jpV0 _ | .rnd _ _ | .drw _ _ _ | .ldVxDt _
  | .ldDtVx _ | .ldStVx _ | .addI _ | .ldF _ | .ldB _ | .storeRegs _ | .loadRegs _ => false

/-- The instruction is RND, the one that reads the random byte (10_state.md R43). -/
def readsRnd : Instr → Bool
  | .rnd _ _ => true
  | .cls | .ret | .jp _ | .call _ | .seImm _ _ | .sneImm _ _ | .seReg _ _ | .ldImm _ _ | .addImm _ _
  | .ldReg _ _ | .orReg _ _ | .andReg _ _ | .xorReg _ _ | .addReg _ _ | .subReg _ _ | .shrReg _ _
  | .subnReg _ _ | .shlReg _ _ | .sneReg _ _ | .ldI _ | .jpV0 _ | .drw _ _ _ | .skp _ | .sknp _
  | .ldVxDt _ | .ldVxK _ | .ldDtVx _ | .ldStVx _ | .addI _ | .ldF _ | .ldB _ | .storeRegs _
  | .loadRegs _ => false

/-- The block of Fx55 and Fx65 is in range: under `strict` with the new I, under `lenient` without
(43_index_memory.md R204). -/
abbrev blockInRange (s : State) (x : Reg) : Prop :=
  (s.cfg.postInc = .strict ∧ s.I.toNat + x.val + 1 ≤ 0xFFF) ∨
    (s.cfg.postInc = .lenient ∧ s.I.toNat + x.val ≤ 0xFFF)

/-! ## A draw, pixel by pixel (40_display.md R113 to R115) -/

/-- The sprite of `n` rows at `base`, drawn at column X and row Y, has a 1 bit at pixel (row, col). -/
def spriteCovers (m : Memory) (base n X Y row col : Nat) : Bool :=
  decide (Y ≤ row) && decide (row < Y + n) && decide (X ≤ col) && decide (col < X + 8) &&
    (m.read (base + (row - Y))).getLsbD (7 - (col - X))

/-- This draw turns the pixel off: the sprite has a 1 bit there and the pixel was 1 (40_display.md R115). -/
def drawCollidesAt (s : State) (X Y : Byte) (n row col : Nat) : Prop :=
  row < 32 ∧ col < 64 ∧ pixel s.fb row col = true ∧
    spriteCovers s.mem s.I.toNat n X.toNat Y.toNat row col = true

end Sys2Proof.Machine
end

