-- ==== Sys2Proof/Certificates/Slice0/Obligations.lean ====
section
/-! DEFINITION. The statements for the provers. Each docstring names the rules of spec/ it comes from. In the
statements about `exec` the state is that of Execute: pc is the instruction's address plus 2
(30_encoding.md R83), so "pc unchanged" says that the run goes on at the next instruction. -/

open Sys2Proof Sys2Proof.Machine

/-! ## Encoding -/

/-- Decoding the encoding of a well-formed instruction gives it back (30_encoding.md, section 2). -/
def Obligations.DecodeOfEncodeIsTheInstruction : Prop :=
  ∀ i : Instr, i.WellFormed → decode (encode i) = .ok i

/-- A word that decodes has exactly that instruction's encoding, and the instruction is well-formed
(30_encoding.md, section 2). -/
def Obligations.EncodeOfDecodeIsTheWord : Prop :=
  ∀ (w : Word) (i : Instr), decode w = .ok i → encode i = w ∧ i.WellFormed

/-- The 4-tuple decoder accepts exactly the words that match a row of the match and mask table; every
other word is rejected as unknown (30_encoding.md R85, R86, R88). -/
def Obligations.DecoderAcceptsExactlyTheTable : Prop :=
  ∀ w : Word,
    ((∃ i, decode w = .ok i) ↔ ∃ r ∈ opcodeTable, r.matches w = true) ∧
    ((∀ r ∈ opcodeTable, r.matches w = false) → decode w = .error (.unknownOpcode w))

/-- No word matches two rows (30_encoding.md R86). -/
def Obligations.OpcodeRowsAreDisjoint : Prop :=
  ∀ (w : Word) (j k : Fin opcodeTable.length),
    (opcodeTable[j]).matches w = true → (opcodeTable[k]).matches w = true → j = k

/-- Words written out from the patterns of 30_encoding.md R85 decode to the instructions they stand for. -/
def Obligations.WordsOfTheTableDecode : Prop :=
  decode 0x00E0 = .ok .cls ∧ decode 0x00EE = .ok .ret ∧ decode 0x1ABC = .ok (.jp 0xABC) ∧
  decode 0xD125 = .ok (.drw 1 2 5) ∧ decode 0x812E = .ok (.shlReg 1 2) ∧
  decode 0xF155 = .ok (.storeRegs 1) ∧ decode 0xE19E = .ok (.skp 1) ∧
  decode 0x0000 = .error (.unknownOpcode 0x0000) ∧ decode 0x5121 = .error (.unknownOpcode 0x5121)

/-- Different instructions are written differently in the assembler syntax (30_encoding.md, section 4; tokens and not
text is the model's choice, log 15). -/
def Obligations.AssemblerLineNamesOneInstruction : Prop :=
  ∀ i j : Instr, asmOf i = asmOf j → i = j

/-! ## The step -/

/-- A step whose request is `step`, with the word at pc decoding to `i`, is `exec i` at the sampled and
advanced state, followed by `KeyPrev <- Keys`; so is a step that the held `step` input requests (the model's
form of it, log 3), on free inputs (30_encoding.md, section 1). -/
def Obligations.StepRunsTheDecodedInstruction : Prop :=
  (∀ (s : State) (keys : KeySet) (rnd : Byte) (rest : List Request) (i : Instr),
    s.runState = .running → s.NextRequest (.step keys rnd) rest → s.pc.toNat + 1 ≤ 0xFFF →
    decode (wordOfBytes (s.mem.read s.pc.toNat) (s.mem.read (s.pc.toNat + 1))) = .ok i →
    step s = finishCycle
      (exec i { s with agenda := rest, keys := keys, rnd := rnd, pc := s.pc + 2 })) ∧
  (∀ (s : State) (i : Instr),
    s.runState = .running → s.cancelLatch = false → s.agenda = [] → s.stepHeld = true →
    s.pc.toNat + 1 ≤ 0xFFF →
    decode (wordOfBytes (s.mem.read s.pc.toNat) (s.mem.read (s.pc.toNat + 1))) = .ok i →
    step s = finishCycle
      (exec i { s with
        freeIndex := s.freeIndex + 1, keys := Config.freeKeys s.freeIndex,
        rnd := Config.freeRnd s.freeIndex, pc := s.pc + 2 })) ∧
  (∀ t : State, finishCycle (.next t) = .next { t with keyPrev := t.keys }) ∧
  (∀ f : Fault, finishCycle (.fault f) = .fault f)

/-- An unknown word is reported with code 1, its address and itself, and is otherwise a no-op: pc moves
on by 2 (30_encoding.md R88, 60_exceptions.md R262; the history as a field is log 7). -/
def Obligations.StepReportsAnUnknownWord : Prop :=
  ∀ (s : State) (keys : KeySet) (rnd : Byte) (rest : List Request) (w : Word),
    s.runState = .running → s.NextRequest (.step keys rnd) rest → s.pc.toNat + 1 ≤ 0xFFF →
    w = wordOfBytes (s.mem.read s.pc.toNat) (s.mem.read (s.pc.toNat + 1)) →
    (∀ r ∈ opcodeTable, r.matches w = false) →
    ∃ t, step s = .next t ∧ t.pc.toNat = s.pc.toNat + 2 ∧
      t.events = s.events ++ [⟨.unknownOpcode, s.pc, w⟩] ∧ Cause.unknownOpcode.code = 1 ∧
      t.keyPrev = keys ∧ t.keys = keys ∧ t.rnd = rnd ∧ t.agenda = rest ∧ t.freeIndex = s.freeIndex ∧
      FrameBut noReg [.pc, .events, .inputs] s t

/-- A fetch from pc = 0xFFF or above faults: nothing is read, pc stays, the record holds pc and the address
outside memory (30_encoding.md R81). The state before the cycle is kept but for the sampled ports; that the
fault carries it is the model's (log 1). -/
def Obligations.FetchOutsideMemoryFaults : Prop :=
  ∀ (s : State) (keys : KeySet) (rnd : Byte) (rest : List Request),
    s.runState = .running → s.NextRequest (.step keys rnd) rest → s.pc.toNat + 1 > 0xFFF →
    ∃ h, step s = .fault (.memoryFault h) ∧
      h = haltedWith .memoryFault .fetch s.pc 0 h.fault.addr
        { s with agenda := rest, keys := keys, rnd := rnd } ∧
      h.fault.addr.toNat = (if s.pc.toNat > 0xFFF then s.pc.toNat else s.pc.toNat + 1)

/-- The next step after `withFetchWord` runs the word placed: the core is RUNNING, no request comes first,
and the word at pc is that word (log 9). -/
def Obligations.PlacedWordIsTheNextToRun : Prop :=
  ∀ (s : State) (w : Word), s.mem.wf = true →
    ∃ t, s.withFetchWord 16 w.toNat = t ∧ fetchWord t = w ∧ t.mem.wf = true ∧
      step t = finishCycle (execute w
        { t with freeIndex := t.freeIndex + 1, keys := Config.freeKeys t.freeIndex,
                 rnd := Config.freeRnd t.freeIndex, pc := t.pc + 2 }) ∧
      (s.pc.toNat + 1 ≤ 0xFFF → t.pc = s.pc) ∧
      (∀ a, a ≠ t.pc.toNat → a ≠ t.pc.toNat + 1 → t.mem.read a = s.mem.read a) ∧
      FrameBut noReg [.pc, .memory, .status, .inputs] s t

/-! ## Register and arithmetic instructions -/

/-- 6xkk, 8xy0 and Fx07, with their rows: Vx takes the immediate, Vy, DT; nothing else changes (42_alu.md R161, R163;
44_timers_input.md R230). -/
def Obligations.LoadsPutTheirSourceInVx : Prop :=
  ∀ (s : State) (x y : Reg) (kk : Byte),
    InRow (.ldImm x kk) 0x6000 0xF000 ∧ InRow (.ldReg x y) 0x8000 0xF00F ∧ InRow (.ldVxDt x) 0xF007 0xF0FF ∧
    (∃ t, exec (.ldImm x kk) s = .next t ∧ t.reg x = kk ∧ FrameBut (· = x) [] s t) ∧
    (∃ t, exec (.ldReg x y) s = .next t ∧ t.reg x = s.reg y ∧ FrameBut (· = x) [] s t) ∧
    (∃ t, exec (.ldVxDt x) s = .next t ∧ t.reg x = s.dt ∧ FrameBut (· = x) [] s t)

/-- 7xkk adds modulo 256 and sets no flag (42_alu.md R162). -/
def Obligations.AddImmediateWrapsWithoutFlag : Prop :=
  ∀ (s : State) (x : Reg) (kk : Byte),
    InRow (.addImm x kk) 0x7000 0xF000 ∧ ∃ t, exec (.addImm x kk) s = .next t ∧
      (t.reg x).toNat = ((s.reg x).toNat + kk.toNat) % 256 ∧ FrameBut (· = x) [] s t

/-- 8xy1, 8xy2 and 8xy3 work bit by bit on the old values and set no flag (42_alu.md R164, R165, R166). -/
def Obligations.LogicIsBitwiseWithoutFlag : Prop :=
  ∀ (s : State) (x y : Reg),
    InRow (.orReg x y) 0x8001 0xF00F ∧ InRow (.andReg x y) 0x8002 0xF00F ∧ InRow (.xorReg x y) 0x8003 0xF00F ∧
    (∃ t, exec (.orReg x y) s = .next t ∧ FrameBut (· = x) [] s t ∧
      ∀ k, (t.reg x).getLsbD k = ((s.reg x).getLsbD k || (s.reg y).getLsbD k)) ∧
    (∃ t, exec (.andReg x y) s = .next t ∧ FrameBut (· = x) [] s t ∧
      ∀ k, (t.reg x).getLsbD k = ((s.reg x).getLsbD k && (s.reg y).getLsbD k)) ∧
    (∃ t, exec (.xorReg x y) s = .next t ∧ FrameBut (· = x) [] s t ∧
      ∀ k, (t.reg x).getLsbD k = Bool.xor ((s.reg x).getLsbD k) ((s.reg y).getLsbD k))

/-- 8xy4: the sum modulo 256 in Vx, then VF = 1 exactly when the sum of the old values passes 255
(42_alu.md R160, R167). With x = F the flag is what stays. -/
def Obligations.AddWritesSumThenCarry : Prop :=
  ∀ (s : State) (x y : Reg),
    InRow (.addReg x y) 0x8004 0xF00F ∧ ∃ t, exec (.addReg x y) s = .next t ∧
      (x ≠ VF → (t.reg x).toNat = ((s.reg x).toNat + (s.reg y).toNat) % 256) ∧
      (t.reg VF).toNat = (if (s.reg x).toNat + (s.reg y).toNat > 255 then 1 else 0) ∧
      FrameBut (fun r => r = x ∨ r = VF) [] s t

/-- 8xy5 and 8xy7: the difference modulo 256 in Vx, then VF = 1 exactly when the minuend was strictly
greater (42_alu.md R160, R168, R170). -/
def Obligations.SubtractWritesDifferenceThenStrictFlag : Prop :=
  ∀ (s : State) (x y : Reg),
    InRow (.subReg x y) 0x8005 0xF00F ∧ InRow (.subnReg x y) 0x8007 0xF00F ∧
    (∃ t, exec (.subReg x y) s = .next t ∧
      (x ≠ VF → ((t.reg x).toNat + (s.reg y).toNat) % 256 = (s.reg x).toNat) ∧
      (t.reg VF).toNat = (if (s.reg x).toNat > (s.reg y).toNat then 1 else 0) ∧
      FrameBut (fun r => r = x ∨ r = VF) [] s t) ∧
    (∃ t, exec (.subnReg x y) s = .next t ∧
      (x ≠ VF → ((t.reg x).toNat + (s.reg x).toNat) % 256 = (s.reg y).toNat) ∧
      (t.reg VF).toNat = (if (s.reg y).toNat > (s.reg x).toNat then 1 else 0) ∧
      FrameBut (fun r => r = x ∨ r = VF) [] s t)

/-- 8xy6 and 8xyE shift Vy by one into Vx, then VF = the bit shifted out (42_alu.md R160, R169, R171). -/
def Obligations.ShiftsMoveVyAndFlagTheLostBit : Prop :=
  ∀ (s : State) (x y : Reg),
    (∃ t, exec (.shrReg x y) s = .next t ∧
      (x ≠ VF → (t.reg x).toNat = (s.reg y).toNat / 2) ∧ (t.reg VF).toNat = (s.reg y).toNat % 2 ∧
      FrameBut (fun r => r = x ∨ r = VF) [] s t) ∧
    (∃ t, exec (.shlReg x y) s = .next t ∧
      (x ≠ VF → (t.reg x).toNat = 2 * (s.reg y).toNat % 256) ∧
      (t.reg VF).toNat = (s.reg y).toNat / 128 ∧
      FrameBut (fun r => r = x ∨ r = VF) [] s t)

/-- Cxkk: Vx is the cycle's random byte, whatever it is, masked by kk bit by bit (42_alu.md R190,
10_state.md R43). -/
def Obligations.RandomIsMaskedByTheImmediate : Prop :=
  ∀ (s : State) (x : Reg) (kk : Byte),
    ∃ t, exec (.rnd x kk) s = .next t ∧ FrameBut (· = x) [] s t ∧
      (∀ k, (t.reg x).getLsbD k = (s.rnd.getLsbD k && kk.getLsbD k)) ∧ t.reg x &&& ~~~kk = 0

/-! ## Index register and memory -/

/-- Annn and Fx29: I takes the address, the unmasked glyph address (43_index_memory.md R200, R202). -/
def Obligations.IndexLoadsSetI : Prop :=
  ∀ (s : State) (nnn : Addr12) (x : Reg),
    (∃ t, exec (.ldI nnn) s = .next t ∧ t.I.toNat = nnn.toNat ∧ FrameBut noReg [.index] s t) ∧
    (∃ t, exec (.ldF x) s = .next t ∧ t.I.toNat = 0x050 + 5 * (s.reg x).toNat ∧
      FrameBut noReg [.index] s t)

/-- Fx1E: I + Vx, with a MemoryFault and I unchanged when it passes 0xFFF (43_index_memory.md R201; logs 1
and 10 for what the fault carries). -/
def Obligations.AddToIndexIsRangeChecked : Prop :=
  ∀ (s : State) (x : Reg),
    (s.I.toNat + (s.reg x).toNat ≤ 0xFFF →
      ∃ t, exec (.addI x) s = .next t ∧ t.I.toNat = s.I.toNat + (s.reg x).toNat ∧
        FrameBut noReg [.index] s t) ∧
    (s.I.toNat ≤ 0x1000 → s.I.toNat + (s.reg x).toNat > 0xFFF →
      ∃ addr, exec (.addI x) s = .fault (.memoryFault
          (haltedWith .memoryFault .execute (s.pc - 2) (encode (.addI x)) addr s)) ∧
        addr.toNat = s.I.toNat + (s.reg x).toNat)

/-- Fx33: the three decimal digits of Vx at I, I + 1, I + 2, every other byte as before; a MemoryFault with
nothing written when I + 2 passes 0xFFF (43_index_memory.md R203; logs 1 and 10 for what the fault
carries). -/
def Obligations.BcdStoresThreeDigits : Prop :=
  ∀ (s : State) (x : Reg), s.mem.wf = true → InRow (.ldB x) 0xF033 0xF0FF ∧
    (s.I.toNat + 2 ≤ 0xFFF →
      ∃ t h d u, exec (.ldB x) s = .next t ∧ h ≤ 2 ∧ d ≤ 9 ∧ u ≤ 9 ∧
        (s.reg x).toNat = 100 * h + 10 * d + u ∧
        (t.mem.read s.I.toNat).toNat = h ∧ (t.mem.read (s.I.toNat + 1)).toNat = d ∧
        (t.mem.read (s.I.toNat + 2)).toNat = u ∧
        (∀ a, a < s.I.toNat ∨ s.I.toNat + 2 < a → t.mem.read a = s.mem.read a) ∧
        FrameBut noReg [.memory] s t) ∧
    (s.I.toNat + 2 > 0xFFF →
      exec (.ldB x) s = .fault (.memoryFault
        (haltedWith .memoryFault .execute (s.pc - 2) (encode (.ldB x)) 0x1000 s)))

/-- Fx55: V0 to Vx at I onwards, every other byte as before, I moved past the block
(43_index_memory.md R204). -/
def Obligations.StoreWritesTheRegisterBlock : Prop :=
  ∀ (s : State) (x : Reg), s.mem.wf = true → blockInRange s x →
    ∃ t, exec (.storeRegs x) s = .next t ∧ t.I.toNat = s.I.toNat + x.val + 1 ∧
      (∀ r : Reg, r ≤ x → t.mem.read (s.I.toNat + r.val) = s.reg r) ∧
      (∀ a, a < s.I.toNat ∨ s.I.toNat + x.val < a → t.mem.read a = s.mem.read a) ∧
      FrameBut noReg [.memory, .index] s t

/-- Fx65: V0 to Vx from I onwards, higher registers and memory as before, I moved past the block
(43_index_memory.md R205). -/
def Obligations.LoadReadsTheRegisterBlock : Prop :=
  ∀ (s : State) (x : Reg), blockInRange s x →
    ∃ t, exec (.loadRegs x) s = .next t ∧ t.I.toNat = s.I.toNat + x.val + 1 ∧
      (∀ r : Reg, r ≤ x → t.reg r = s.mem.read (s.I.toNat + r.val)) ∧
      FrameBut (· ≤ x) [.index] s t

/-- Fx55 and Fx65 out of range: MemoryFault at 0x1000, nothing written (43_index_memory.md R204, R205; logs 1,
10 and 14 for what the fault carries). -/
def Obligations.BlockOutOfRangeFaults : Prop :=
  ∀ (s : State) (x : Reg), ¬blockInRange s x →
    exec (.storeRegs x) s = .fault (.memoryFault
      (haltedWith .memoryFault .execute (s.pc - 2) (encode (.storeRegs x)) 0x1000 s)) ∧
    exec (.loadRegs x) s = .fault (.memoryFault
      (haltedWith .memoryFault .execute (s.pc - 2) (encode (.loadRegs x)) 0x1000 s))

/-- The next fetch sees a store into its bytes (20_memory.md, section 4; 43_index_memory.md R204). -/
def Obligations.FetchSeesAnEarlierStore : Prop :=
  ∀ (s : State) (x j k : Reg), s.mem.wf = true → blockInRange s x → j ≤ x → k ≤ x →
    s.pc.toNat = s.I.toNat + j.val → k.val = j.val + 1 →
    ∃ t, exec (.storeRegs x) s = .next t ∧ t.pc = s.pc ∧
      fetchWord t = wordOfBytes (s.reg j) (s.reg k)

/-! ## Display -/

/-- 00E0 turns every pixel off and changes nothing else (40_display.md R110). -/
def Obligations.ClearTurnsEveryPixelOff : Prop :=
  ∀ s : State, InRow .cls 0x00E0 0xFFFF ∧ ∃ t, exec .cls s = .next t ∧ FrameBut noReg [.display] s t ∧
    (∀ row col, pixel t.fb row col = false) ∧ ∀ row, fbData t row = 0

/-- Dxyn, pixel by pixel: each pixel is XORed with the sprite bit over it, clipped and not wrapped; VF = 1
exactly when this draw turned a pixel off; nothing else changes (40_display.md R111, R113 to R118). -/
def Obligations.DrawXorsTheClippedSprite : Prop :=
  ∀ (s : State) (x y : Reg) (n : Nat), (n = 0 ∨ s.I.toNat + n - 1 ≤ 0xFFF) →
    ∃ t, exec (.drw x y n) s = .next t ∧
      (∀ row col, row < 32 → col < 64 → pixel t.fb row col = Bool.xor (pixel s.fb row col)
        (spriteCovers s.mem s.I.toNat n (s.reg x).toNat (s.reg y).toNat row col)) ∧
      (t.reg VF = 1 ↔ ∃ row col, drawCollidesAt s (s.reg x) (s.reg y) n row col) ∧
      (t.reg VF = 0 ∨ t.reg VF = 1) ∧ FrameBut (· = VF) [.display] s t

/-- Dxyn whose bytes pass 0xFFF faults before any pixel or VF changes, also when the rows are off the
display (40_display.md R111, R112; logs 1 and 10 for what the fault carries). -/
def Obligations.DrawOutOfRangeFaults : Prop :=
  ∀ (s : State) (x y : Reg) (n : Nat), s.I.toNat ≤ 0x1000 → 0 < n → s.I.toNat + n - 1 > 0xFFF →
    exec (.drw x y n) s = .fault (.memoryFault
      (haltedWith .memoryFault .execute (s.pc - 2) (encode (.drw x y n)) 0x1000 s))

/-- The same sprite drawn twice at the same place restores the framebuffer, and the second draw sets VF = 1
exactly when the sprite has a 1 bit on the display (40_display.md R118). -/
def Obligations.DrawingTwiceRestoresTheDisplay : Prop :=
  ∀ (s : State) (x y : Reg) (n : Nat), x ≠ VF → y ≠ VF → (n = 0 ∨ s.I.toNat + n - 1 ≤ 0xFFF) →
    (∀ row col, row < 32 → col < 64 → pixel s.fb row col = false) →
    ∃ t u, exec (.drw x y n) s = .next t ∧ exec (.drw x y n) t = .next u ∧ u.fb = s.fb ∧
      t.reg VF = 0 ∧
      (u.reg VF = 1 ↔ ∃ row col, row < 32 ∧ col < 64 ∧
        spriteCovers s.mem s.I.toNat n (s.reg x).toNat (s.reg y).toNat row col = true)

/-! ## Control flow -/

/-- 1nnn and Bnnn: pc is the target, not reduced modulo 0x1000 (41_control_flow.md R131, R137). -/
def Obligations.JumpsSetPc : Prop :=
  ∀ (s : State) (nnn : Addr12),
    (∃ t, exec (.jp nnn) s = .next t ∧ t.pc.toNat = nnn.toNat ∧ FrameBut noReg [.pc] s t) ∧
    (∃ t, exec (.jpV0 nnn) s = .next t ∧ t.pc.toNat = nnn.toNat + (s.reg 0).toNat ∧
      FrameBut noReg [.pc] s t)

/-- 2nnn: the already-advanced pc is pushed and pc is the target; a full stack is a StackOverflow with
nothing written (41_control_flow.md R132, 60_exceptions.md R264; logs 1, 10 and 13). -/
def Obligations.CallPushesTheAdvancedPc : Prop :=
  ∀ (s : State) (nnn : Addr12), s.stack.length = s.cfg.stackCapacity →
    (s.sp < s.cfg.stackCapacity →
      ∃ t, exec (.call nnn) s = .next t ∧ t.pc.toNat = nnn.toNat ∧ t.sp = s.sp + 1 ∧
        t.stack[s.sp]? = some s.pc ∧ (∀ k, k ≠ s.sp → t.stack[k]? = s.stack[k]?) ∧
        FrameBut noReg [.pc, .stack] s t) ∧
    (s.sp = s.cfg.stackCapacity →
      exec (.call nnn) s = .fault (.stackOverflow
        (haltedWith .stackOverflow .execute (s.pc - 2) (encode (.call nnn)) 0 s)))

/-- 00EE: the top entry goes to pc; an empty stack is a StackUnderflow with pc left at the advanced value
(41_control_flow.md R130, 60_exceptions.md R263; logs 1 and 10 for what the fault carries). -/
def Obligations.ReturnPopsIntoPc : Prop :=
  ∀ s : State, s.stack.length = s.cfg.stackCapacity → s.sp ≤ s.cfg.stackCapacity →
    (0 < s.sp →
      ∃ t, exec .ret s = .next t ∧ s.stack[s.sp - 1]? = some t.pc ∧ t.sp + 1 = s.sp ∧
        t.stack = s.stack ∧ FrameBut noReg [.pc, .stack] s t) ∧
    (s.sp = 0 →
      exec .ret s = .fault (.stackUnderflow
        (haltedWith .stackUnderflow .execute (s.pc - 2) 0x00EE 0 s)))

/-- A call, then a return at the same depth with the entry untouched, goes on after the call with SP as
before it (41_control_flow.md R141). -/
def Obligations.ReturnAfterCallContinuesAfterTheCall : Prop :=
  ∀ (s : State) (nnn : Addr12), s.stack.length = s.cfg.stackCapacity → s.sp < s.cfg.stackCapacity →
    ∃ t, exec (.call nnn) s = .next t ∧
      ∀ t' : State, t'.sp = t.sp → t'.stack[s.sp]? = t.stack[s.sp]? →
        ∃ u, exec .ret t' = .next u ∧ u.pc = s.pc ∧ u.sp = s.sp

/-- 3xkk, 4xkk, 5xy0, 9xy0: 2 more on pc exactly when the condition holds (41_control_flow.md R133 to R136,
R138). -/
def Obligations.SkipsMovePcByTwoOnTheirCondition : Prop :=
  ∀ (s : State) (x y : Reg) (kk : Byte),
    InRow (.seImm x kk) 0x3000 0xF000 ∧ InRow (.sneImm x kk) 0x4000 0xF000 ∧
    InRow (.seReg x y) 0x5000 0xF00F ∧ InRow (.sneReg x y) 0x9000 0xF00F ∧
    (∃ t, exec (.seImm x kk) s = .next t ∧ FrameBut noReg [.pc] s t ∧
      (s.reg x = kk → t.pc = s.pc + 2) ∧ (s.reg x ≠ kk → t.pc = s.pc)) ∧
    (∃ t, exec (.sneImm x kk) s = .next t ∧ FrameBut noReg [.pc] s t ∧
      (s.reg x ≠ kk → t.pc = s.pc + 2) ∧ (s.reg x = kk → t.pc = s.pc)) ∧
    (∃ t, exec (.seReg x y) s = .next t ∧ FrameBut noReg [.pc] s t ∧
      (s.reg x = s.reg y → t.pc = s.pc + 2) ∧ (s.reg x ≠ s.reg y → t.pc = s.pc)) ∧
    (∃ t, exec (.sneReg x y) s = .next t ∧ FrameBut noReg [.pc] s t ∧
      (s.reg x ≠ s.reg y → t.pc = s.pc + 2) ∧ (s.reg x = s.reg y → t.pc = s.pc))

/-! ## Timers and keys -/

/-- Fx15 and Fx18: the timer takes Vx (44_timers_input.md R231, R232). -/
def Obligations.TimerLoadsSetTheTimers : Prop :=
  ∀ (s : State) (x : Reg),
    (∃ t, exec (.ldDtVx x) s = .next t ∧ t.dt = s.reg x ∧ FrameBut noReg [.delay] s t) ∧
    (∃ t, exec (.ldStVx x) s = .next t ∧ t.st = s.reg x ∧
      (soundActive t = true ↔ s.reg x ≠ 0) ∧ FrameBut noReg [.sound] s t)

/-- Ex9E and ExA1 with Vx at most 15: 2 more on pc exactly when the key is down, is up
(44_timers_input.md R240, R241). -/
def Obligations.KeySkipsTestTheSnapshot : Prop :=
  ∀ (s : State) (x : Reg), (s.reg x).toNat ≤ 15 →
    (∃ t, exec (.skp x) s = .next t ∧ FrameBut noReg [.pc] s t ∧
      (s.keys.getLsbD (s.reg x).toNat = true → t.pc = s.pc + 2) ∧
      (s.keys.getLsbD (s.reg x).toNat = false → t.pc = s.pc)) ∧
    (∃ t, exec (.sknp x) s = .next t ∧ FrameBut noReg [.pc] s t ∧
      (s.keys.getLsbD (s.reg x).toNat = false → t.pc = s.pc + 2) ∧
      (s.keys.getLsbD (s.reg x).toNat = true → t.pc = s.pc))

/-- Ex9E and ExA1 with Vx above 15: KeyIndexFault with fault_addr = Vx (44_timers_input.md R242; logs 1 and 10
for what the fault carries). -/
def Obligations.KeyIndexAboveFifteenFaults : Prop :=
  ∀ (s : State) (x : Reg), (s.reg x).toNat > 15 →
    ∃ addr : Word, addr.toNat = (s.reg x).toNat ∧
      exec (.skp x) s = .fault (.keyIndexFault
        (haltedWith .keyIndexFault .execute (s.pc - 2) (encode (.skp x)) addr s)) ∧
      exec (.sknp x) s = .fault (.keyIndexFault
        (haltedWith .keyIndexFault .execute (s.pc - 2) (encode (.sknp x)) addr s))

/-- Fx0A. In `suspend` mode: with a newly pressed key Vx takes the lowest one's index; with none the
instruction stalls, pc back at its own address (44_timers_input.md R245, R247). In `nop` mode: reported with
code 6, no other effect (R246; log 10 for the address and word). -/
def Obligations.KeyWaitSuspendsOrIsReported : Prop :=
  ∀ (s : State) (x : Reg),
    (s.cfg.keyWait = .suspend → (∃ k, k < 16 ∧ s.keys.getLsbD k = true ∧ s.keyPrev.getLsbD k = false) →
      ∃ t k, exec (.ldVxK x) s = .next t ∧ k < 16 ∧ s.keys.getLsbD k = true ∧
        s.keyPrev.getLsbD k = false ∧
        (∀ j, j < k → ¬(s.keys.getLsbD j = true ∧ s.keyPrev.getLsbD j = false)) ∧
        (t.reg x).toNat = k ∧ FrameBut (· = x) [] s t) ∧
    (s.cfg.keyWait = .suspend →
      (∀ k, k < 16 → s.keys.getLsbD k = true → s.keyPrev.getLsbD k = true) →
      ∃ t, exec (.ldVxK x) s = .next t ∧ t.pc = s.pc - 2 ∧ FrameBut noReg [.pc] s t) ∧
    (s.cfg.keyWait = .nop →
      ∃ t, exec (.ldVxK x) s = .next t ∧
        t.events = s.events ++ [⟨.keyWaitUnsupported, s.pc - 2, encode (.ldVxK x)⟩] ∧
        Cause.keyWaitUnsupported.code = 6 ∧ FrameBut noReg [.events] s t)

/-! ## Rules over all instructions -/

/-- Only 00E0 and Dxyn change the framebuffer (10_state.md R34), only Fx33 and Fx55 change Memory
(20_memory.md R69). -/
def Obligations.DisplayAndMemoryHaveTheirOwnWriters : Prop :=
  ∀ (i : Instr) (s t : State), exec i s = .next t →
    (t.fb ≠ s.fb → i = .cls ∨ ∃ x y n, i = .drw x y n) ∧
    (∀ a, t.mem.read a ≠ s.mem.read a → (∃ x, i = .ldB x) ∨ ∃ x, i = .storeRegs x)

/-- Only 2nnn and 00EE change the stack or SP (10_state.md R28), only Annn, Fx1E, Fx29, Fx55 and Fx65 change I
(R23), only Fx15 changes DT and only Fx18 changes ST (R31). -/
def Obligations.StackIndexAndTimersHaveTheirOwnWriters : Prop :=
  ∀ (i : Instr) (s t : State), exec i s = .next t →
    ((t.stack ≠ s.stack ∨ t.sp ≠ s.sp) → i = .ret ∨ ∃ nnn, i = .call nnn) ∧
    (t.I ≠ s.I → (∃ nnn, i = .ldI nnn) ∨ (∃ x, i = .addI x) ∨ (∃ x, i = .ldF x) ∨
      (∃ x, i = .storeRegs x) ∨ ∃ x, i = .loadRegs x) ∧
    (t.dt ≠ s.dt → ∃ x, i = .ldDtVx x) ∧ (t.st ≠ s.st → ∃ x, i = .ldStVx x)

/-- A register changes only where the instruction names it as destination, or it is VF and the instruction
writes the flag; a flag written is 0 or 1 (10_state.md R21, R22). -/
def Obligations.RegistersChangeOnlyWhereNamed : Prop :=
  ∀ (i : Instr) (s t : State), exec i s = .next t →
    (∀ r, t.reg r ≠ s.reg r → namesDest i r = true ∨ (r = VF ∧ writesFlag i = true)) ∧
    (writesFlag i = true → t.reg VF = 0 ∨ t.reg VF = 1)

/-- No instruction that completes writes run_state, the fault record, the parameters, the ports' snapshots or
what is still to come (10_state.md R38, R39; the latch and the parameters as fields are
the model's, logs 5 and 6, and so is what is still to come, logs 2, 3 and 4). -/
def Obligations.NoInstructionWritesHostState : Prop :=
  ∀ (i : Instr) (s t : State), exec i s = .next t → Part.status.same s t ∧ Part.inputs.same s t

/-- What an execute fault leaves: the state with pc = a + 2 as it was, HALTED, and the record with stage 1,
the instruction's address and word; each instruction meets one cause at most (60_exceptions.md R266,
R267, R269; logs 1 and 10). -/
def Obligations.ExecuteFaultLeavesOnlyTheRecord : Prop :=
  ∀ (i : Instr) (s : State) (f : Fault), exec i s = .fault f →
    ∃ c addr, mayRaise i = some c ∧
      f = c.fault (haltedWith c.cause .execute (s.pc - 2) (encode i) addr s)

/-- The key snapshot changes nothing for an instruction that is no key instruction, the random byte nothing
but for Cxkk, the previous snapshot nothing but for Fx0A (10_state.md R36, R37, R43). No instruction reads ST:
a change of ST reaches nothing but ST (R31). -/
def Obligations.InputsAndSoundTimerReachOnlyTheirReaders : Prop :=
  ∀ (i : Instr) (s t : State) (keys keyPrev : KeySet) (rnd b : Byte), exec i s = .next t →
    (readsKeys i = false → exec i { s with keys := keys } = .next { t with keys := keys }) ∧
    ((∀ x, i ≠ .ldVxK x) →
      exec i { s with keyPrev := keyPrev } = .next { t with keyPrev := keyPrev }) ∧
    (readsRnd i = false → exec i { s with rnd := rnd } = .next { t with rnd := rnd }) ∧
    ∃ b', exec i { s with st := b } = .next { t with st := b' }

/-! ## Ticks, cancellation, host requests -/

/-- A tick while RUNNING takes 1 from each nonzero timer, both in one step, and touches nothing else
(44_timers_input.md R250); in any other state it is ignored (R253). The agenda is the model's (log 2). -/
def Obligations.TickDecrementsBothTimersToZero : Prop :=
  ∀ (s : State) (rest : List Request), s.NextRequest .tick rest →
    ∃ t, step s = .next t ∧ FrameBut noReg [.delay, .sound] { s with agenda := rest } t ∧
      (s.runState = .running → t.dt.toNat = s.dt.toNat - 1 ∧ t.st.toNat = s.st.toNat - 1) ∧
      (s.runState ≠ .running → t.dt = s.dt ∧ t.st = s.st)

/-- `n` ticks in a row take a timer down by `n`, never below 0 (44_timers_input.md R250, R254; log 2 for the agenda). -/
def Obligations.TimersDecayByTheNumberOfTicks : Prop :=
  ∀ (n : Nat) (s : State) (rest : List Request), s.runState = .running → s.cancelLatch = false →
    s.agenda = List.replicate n .tick ++ rest →
    ∃ t, runSteps n s = .next t ∧ t.dt.toNat = s.dt.toNat - n ∧ t.st.toNat = s.st.toNat - n ∧
      FrameBut noReg [.delay, .sound] { s with agenda := rest } t

/-- A cancel honoured: STOPPED at the next boundary, whatever requests follow (but a reset), and nothing else
changes, the fault record not either (60_exceptions.md R280; the latch that stays set is the model's, log 6). -/
def Obligations.CancelStopsAtTheNextBoundary : Prop :=
  ∀ (s : State) (rest : List Request), s.runState = .running → s.NextRequest .cancel rest →
    rest.head? ≠ some .rst →
    runSteps 2 s = .next { s with runState := .stopped, cancelLatch := true, agenda := rest }

/-- In one clock, cancel wins over step and tick: after all of them the core is STOPPED with every register,
timer and byte as before (60_exceptions.md R270; logs 2 and 6). -/
def Obligations.CancelWinsOverStepAndTick : Prop :=
  ∀ (s : State) (step tick : Bool) (keys : KeySet) (rnd : Byte), s.runState = .running →
    s.cancelLatch = false → s.agenda = clockRequests true step tick keys rnd →
    runSteps (s.agenda.length + 1) s =
      .next { s with runState := .stopped, cancelLatch := true, agenda := [] }

/-- HALTED and STOPPED are final: without a reset, any number of requests leaves everything as it is
(60_exceptions.md R268, 70_reset_and_hazards.md R310; log 2 for the agenda). -/
def Obligations.EndedRunsStayEnded : Prop :=
  ∀ (n : Nat) (s : State), s.Final → Request.rst ∉ s.agenda →
    runSteps n s = .next { s with agenda := s.agenda.drop n }

/-- Nothing runs in IDLE: a `step` request changes nothing (10_state.md R38, 30_encoding.md R80). `start` makes
an IDLE core RUNNING, changes nothing else, and is ignored elsewhere (70_reset_and_hazards.md R305). -/
def Obligations.StartLeavesIdleAndStepWaitsForIt : Prop :=
  ∀ (s : State) (rest : List Request) (keys : KeySet) (rnd : Byte),
    (s.NextRequest (.step keys rnd) rest → s.runState ≠ .running →
      step s = .next { s with agenda := rest }) ∧
    (s.NextRequest .start rest → s.runState = .idle →
      step s = .next { s with agenda := rest, runState := .running }) ∧
    (s.NextRequest .start rest → s.runState ≠ .idle → step s = .next { s with agenda := rest })

/-- A cycle runs only when it is requested (30_encoding.md R80; the agenda and the held `step` are the model's
form of the request, logs 2 and 3). Without a request no step faults, and a step that is no reset leaves all
but Memory, timers and status as it was; with nothing asked at all, everything stays, however often the
machine is looked at. -/
def Obligations.CyclesRunOnlyOnRequest : Prop :=
  ∀ s : State, ¬s.CycleRequested →
    (∀ f, step s ≠ .fault f) ∧
    (∀ t, step s = .next t → (∀ rest, s.agenda ≠ .rst :: rest) →
      FrameBut noReg [.memory, .delay, .sound, .status, .inputs] s t ∧
      t.keys = s.keys ∧ t.keyPrev = s.keyPrev ∧ t.rnd = s.rnd ∧ t.freeIndex = s.freeIndex) ∧
    (∀ n, s.agenda = [] → cancelDue s = false → runSteps n s = .next s)

/-- A load writes its byte in IDLE and is ignored elsewhere (20_memory.md R74). -/
def Obligations.LoadWritesOnlyInIdle : Prop :=
  ∀ (s : State) (rest : List Request) (a : Addr12) (b : Byte), s.mem.wf = true →
    s.NextRequest (.load a b) rest →
    ∃ t, step s = .next t ∧ FrameBut noReg [.memory] { s with agenda := rest } t ∧
      (∀ c, c ≠ a.toNat → t.mem.read c = s.mem.read c) ∧
      (s.runState = .idle → t.mem.read a.toNat = b) ∧
      (s.runState ≠ .idle → t.mem = s.mem)

/-- A reset in any state, at once, gives every piece of state its reset value (10_state.md R41,
70_reset_and_hazards.md R300, R301; the history kept is log 7). -/
def Obligations.ResetGivesEveryResetValue : Prop :=
  ∀ (s : State) (rest : List Request), s.agenda = .rst :: rest →
    ∃ t, step s = .next t ∧ (∀ r, t.reg r = 0) ∧ t.I = 0 ∧ t.pc = 0x200 ∧ t.sp = 0 ∧
      (∀ w ∈ t.stack, w = 0) ∧ t.stack.length = s.cfg.stackCapacity ∧ t.dt = 0 ∧ t.st = 0 ∧
      (∀ row col, pixel t.fb row col = false) ∧ (∀ a, t.mem.read a = 0) ∧ t.keyPrev = 0 ∧
      t.runState = .idle ∧ t.fault = FaultRecord.zero ∧ t.events = s.events

/-- The reset state itself holds those values (10_state.md R41). -/
def Obligations.ResetStateHoldsTheTable : Prop :=
  (∀ r, State.reset.reg r = 0) ∧ State.reset.I = 0 ∧ State.reset.pc = 0x200 ∧ State.reset.sp = 0 ∧
    State.reset.stack = List.replicate 16 0 ∧ State.reset.dt = 0 ∧ State.reset.st = 0 ∧
    (∀ row col, pixel State.reset.fb row col = false) ∧ (∀ a, State.reset.mem.read a = 0) ∧
    State.reset.keyPrev = 0 ∧ State.reset.runState.code = 0 ∧ State.reset.fault.cause.code = 0 ∧
    State.reset.fault.stage.code = 0 ∧ State.reset.fault.pc = 0 ∧ State.reset.fault.insn = 0 ∧
    State.reset.fault.addr = 0

/-! ## Launch -/

/-- The loader's requests and `start`, run from reset, give exactly the launch state
(70_reset_and_hazards.md, section 2; logs 2 and 9). -/
def Obligations.LoaderRequestsReachTheLaunchState : Prop :=
  ∀ (font : Vector Byte 80) (program : List Byte),
    runSteps (launchRequests font program).length
        { State.reset with agenda := launchRequests font program } =
      .next (launch font program)

/-- What memory holds at launch: the font at 0x050, the program's first 3584 bytes at 0x200, zero elsewhere
(70_reset_and_hazards.md R303, R304; 20_memory.md R67). -/
def Obligations.LaunchMemoryIsFontProgramAndZero : Prop :=
  ∀ (font : Vector Byte 80) (program : List Byte) (a : Nat),
    (launch font program).mem.read a =
      if h : 0x050 ≤ a ∧ a < 0x0A0 then font[a - 0x050]'(by omega)
      else if 0x200 ≤ a ∧ a < 0x1000 then program.getD (a - 0x200) 0
      else 0

/-- A self-jump keeps spinning: its cycle completes with pc and every other part as before
(70_reset_and_hazards.md R311). -/
def Obligations.SpinningCoreKeepsSpinning : Prop :=
  ∀ (s : State) (keys : KeySet) (rnd : Byte) (rest : List Request), s.Spinning →
    s.NextRequest (.step keys rnd) rest →
    ∃ t, step s = .next t ∧ t.Spinning ∧ FrameBut noReg [.inputs] s t

/-! ## Invariants -/

/-- The invariant holds at reset and at launch. -/
def Obligations.InvariantHoldsAtResetAndLaunch : Prop :=
  State.reset.Inv ∧ ∀ (font : Vector Byte 80) (program : List Byte), (launch font program).Inv

/-- Every step keeps the invariant: memory canonical, I and pc in range, the stack bounded, the fault record
zero unless HALTED (10_state.md R24, R27, R29, R39). -/
def Obligations.EveryStepKeepsTheInvariant : Prop :=
  ∀ s t : State, s.Inv → step s = .next t → t.Inv

/-- So does the state a fault leaves, which is HALTED (60_exceptions.md R266, R267; log 1). -/
def Obligations.EveryFaultKeepsTheInvariant : Prop :=
  ∀ (s : State) (f : Fault), s.Inv → step s = .fault f → f.halted.Inv ∧ f.halted.runState = .halted

/-- No step is refused. A step faults only in a RUNNING core, and a RUNNING core leaves RUNNING only by a
fault, a cancellation or a reset (70_reset_and_hazards.md R310, R301). -/
def Obligations.RunsEndOnlyByFaultCancelOrReset : Prop :=
  ∀ s : State,
    (∀ r, step s ≠ .refused r) ∧
    (∀ f, step s = .fault f → s.runState = .running) ∧
    (∀ t, step s = .next t → s.runState = .running →
      t.runState = .running ∨ (s.cancelLatch = true ∧ t = { s with runState := .stopped }) ∨
        ∃ rest, s.agenda = .rst :: rest)
end

