-- ==== Sys2Proof/Laws/Decode.lean ====
section
/-! SUPPORT. Fields and packed words as numbers, the fields of a packed word, and a word packed from its
own fields. -/

namespace Sys2Proof

/-- Concatenation as a number: `a` is the more significant part (00_scope.md R8). -/
theorem append_toNat {n m : Nat} (a : BitVec n) (b : BitVec m) :
    (a ++ b).toNat = 2 ^ m * a.toNat + b.toNat := by
  rw [BitVec.toNat_append, ← Nat.shiftLeft_add_eq_or_of_lt b.isLt, Nat.shiftLeft_eq, Nat.mul_comm]

/-! ## Packed words as numbers -/

@[simp] theorem regField_toNat (r : Reg) : (regField r).toNat = r.val := rfl

theorem packNNN_toNat (a : BitVec 4) (nnn : Addr12) :
    (packNNN a nnn).toNat = 4096 * a.toNat + nnn.toNat := append_toNat a nnn

theorem packXKK_toNat (a : BitVec 4) (x : Reg) (kk : Byte) :
    (packXKK a x kk).toNat = 4096 * a.toNat + 256 * x.val + kk.toNat := by
  have h1 := append_toNat a (regField x ++ kk)
  have h2 := append_toNat (regField x) kk
  simp only [packXKK, regField_toNat] at *
  omega

theorem packXYN_toNat (a : BitVec 4) (x y : Reg) (n : BitVec 4) :
    (packXYN a x y n).toNat = 4096 * a.toNat + 256 * x.val + 16 * y.val + n.toNat := by
  have h1 := append_toNat a (regField x ++ (regField y ++ n))
  have h2 := append_toNat (regField x) (regField y ++ n)
  have h3 := append_toNat (regField y) n
  simp only [packXYN, regField_toNat] at *
  omega

/-! ## Fields as numbers -/

theorem fieldN0_eq (w : Word) : fieldN0 w = w.toNat / 4096 := by
  have := w.isLt
  simp only [fieldN0, BitVec.extractLsb'_toNat, Nat.shiftRight_eq_div_pow]
  omega

theorem fieldX_val (w : Word) : (fieldX w).val = w.toNat / 256 % 16 := by
  simp only [fieldX, BitVec.val_toFin, BitVec.extractLsb'_toNat, Nat.shiftRight_eq_div_pow]

theorem fieldY_val (w : Word) : (fieldY w).val = w.toNat / 16 % 16 := by
  simp only [fieldY, BitVec.val_toFin, BitVec.extractLsb'_toNat, Nat.shiftRight_eq_div_pow]

theorem fieldN_eq (w : Word) : fieldN w = w.toNat % 16 := by
  simp only [fieldN, BitVec.extractLsb'_toNat, Nat.shiftRight_eq_div_pow]
  omega

theorem fieldKK_toNat (w : Word) : (fieldKK w).toNat = w.toNat % 256 := by
  simp only [fieldKK, BitVec.extractLsb'_toNat, Nat.shiftRight_eq_div_pow]
  omega

theorem fieldNNN_toNat (w : Word) : (fieldNNN w).toNat = w.toNat % 4096 := by
  simp only [fieldNNN, BitVec.extractLsb'_toNat, Nat.shiftRight_eq_div_pow]
  omega

/-! ## The fields of a packed word -/

@[simp] theorem fieldN0_packNNN (a : BitVec 4) (nnn : Addr12) : fieldN0 (packNNN a nnn) = a.toNat := by
  have := nnn.isLt
  rw [fieldN0_eq, packNNN_toNat]
  omega

@[simp] theorem fieldNNN_packNNN (a : BitVec 4) (nnn : Addr12) : fieldNNN (packNNN a nnn) = nnn := by
  apply BitVec.eq_of_toNat_eq
  have := nnn.isLt
  rw [fieldNNN_toNat, packNNN_toNat]
  omega

@[simp] theorem fieldN0_packXKK (a : BitVec 4) (x : Reg) (kk : Byte) :
    fieldN0 (packXKK a x kk) = a.toNat := by
  have := x.isLt
  have := kk.isLt
  rw [fieldN0_eq, packXKK_toNat]
  omega

@[simp] theorem fieldX_packXKK (a : BitVec 4) (x : Reg) (kk : Byte) : fieldX (packXKK a x kk) = x := by
  apply Fin.ext
  have := x.isLt
  have := kk.isLt
  rw [fieldX_val, packXKK_toNat]
  omega

@[simp] theorem fieldKK_packXKK (a : BitVec 4) (x : Reg) (kk : Byte) : fieldKK (packXKK a x kk) = kk := by
  apply BitVec.eq_of_toNat_eq
  have := kk.isLt
  rw [fieldKK_toNat, packXKK_toNat]
  omega

@[simp] theorem fieldN0_packXYN (a : BitVec 4) (x y : Reg) (n : BitVec 4) :
    fieldN0 (packXYN a x y n) = a.toNat := by
  have := x.isLt
  have := y.isLt
  have := n.isLt
  rw [fieldN0_eq, packXYN_toNat]
  omega

@[simp] theorem fieldX_packXYN (a : BitVec 4) (x y : Reg) (n : BitVec 4) :
    fieldX (packXYN a x y n) = x := by
  apply Fin.ext
  have := x.isLt
  have := y.isLt
  have := n.isLt
  rw [fieldX_val, packXYN_toNat]
  omega

@[simp] theorem fieldY_packXYN (a : BitVec 4) (x y : Reg) (n : BitVec 4) :
    fieldY (packXYN a x y n) = y := by
  apply Fin.ext
  have := y.isLt
  have := n.isLt
  rw [fieldY_val, packXYN_toNat]
  omega

@[simp] theorem fieldN_packXYN (a : BitVec 4) (x y : Reg) (n : BitVec 4) :
    fieldN (packXYN a x y n) = n.toNat := by
  have := n.isLt
  rw [fieldN_eq, packXYN_toNat]
  omega

/-! ## A word packed from its own fields -/

theorem packNNN_fields (w : Word) (a : BitVec 4) (h : fieldN0 w = a.toNat) : packNNN a (fieldNNN w) = w := by
  apply BitVec.eq_of_toNat_eq
  rw [packNNN_toNat, ← h, fieldN0_eq, fieldNNN_toNat]
  omega

theorem packXKK_fields (w : Word) (a : BitVec 4) (h : fieldN0 w = a.toNat) :
    packXKK a (fieldX w) (fieldKK w) = w := by
  apply BitVec.eq_of_toNat_eq
  rw [packXKK_toNat, ← h, fieldN0_eq, fieldX_val, fieldKK_toNat]
  omega

theorem packXYN_fields (w : Word) (a n : BitVec 4) (h : fieldN0 w = a.toNat) (hn : fieldN w = n.toNat) :
    packXYN a (fieldX w) (fieldY w) n = w := by
  apply BitVec.eq_of_toNat_eq
  rw [packXYN_toNat, ← h, ← hn, fieldN0_eq, fieldX_val, fieldY_val, fieldN_eq]
  omega

/-! ## Bytes -/

/-- A stored word is read back by the fetch order (20_memory.md R64). -/
@[simp] theorem wordOfBytes_high_low (w : Word) : wordOfBytes (highByte w) (lowByte w) = w := by
  apply BitVec.eq_of_toNat_eq
  have h := append_toNat (highByte w) (lowByte w)
  have := w.isLt
  simp only [wordOfBytes, highByte, lowByte, BitVec.extractLsb'_toNat, Nat.shiftRight_eq_div_pow] at *
  omega

end Sys2Proof
end

