-- ==== Sys2Proof/Laws/Memory.lean ====
section
/-! SUPPORT. Memory: reads after writes, and the canonical form kept by every operation. -/

namespace Sys2Proof.Machine

/-! ## One byte -/

/-- A write leaves every other address alone (20_memory.md R66). -/
theorem read_write_of_ne {a c : Nat} (h : c ≠ a) (v : Byte) :
    ∀ m : Memory, (m.write a v).read c = m.read c
  | [] => by by_cases hv : v = unlisted <;> simp [Memory.write, Memory.read, hv, h]
  | (k, b) :: m => by
    have ih := read_write_of_ne h v m
    simp only [Memory.write]
    split <;> rename_i h1
    · split <;> simp [Memory.read, h]
    · split <;> rename_i h2
      · subst h2
        split <;> simp [Memory.read, h]
      · simp [Memory.read, ih]

/-- Below the first listed address everything reads as unlisted. -/
theorem read_below {a : Nat} : ∀ {lo : Nat} {m : Memory}, m.wfFrom lo = true → a < lo → m.read a = unlisted
  | _, [], _, _ => rfl
  | lo, (k, b) :: m, hw, ha => by
    simp only [Memory.wfFrom, Bool.and_eq_true, decide_eq_true_eq] at hw
    obtain ⟨⟨⟨hk, -⟩, -⟩, hm⟩ := hw
    have hne : a ≠ k := by omega
    simp only [Memory.read, if_neg hne]
    exact read_below hm (by omega)

/-- A read after a write to the same address gives the value written (20_memory.md R66). -/
theorem read_write_same_from (a : Nat) (v : Byte) :
    ∀ {lo : Nat} {m : Memory}, m.wfFrom lo = true → (m.write a v).read a = v
  | _, [], _ => by by_cases hv : v = unlisted <;> simp [Memory.write, Memory.read, hv]
  | lo, (k, b) :: m, hw => by
    simp only [Memory.wfFrom, Bool.and_eq_true, decide_eq_true_eq] at hw
    obtain ⟨⟨⟨hk, -⟩, -⟩, hm⟩ := hw
    simp only [Memory.write]
    split <;> rename_i h1
    · split <;> rename_i hv
      · have hne : a ≠ k := by omega
        simp only [Memory.read, if_neg hne]
        rw [read_below hm (by omega), hv]
      · simp [Memory.read]
    · split <;> rename_i h2
      · split <;> rename_i hv
        · rw [read_below hm (by omega), hv]
        · simp [Memory.read, h2]
      · simp only [Memory.read, if_neg h2]
        exact read_write_same_from a v hm

theorem read_write_same {m : Memory} (h : m.wf = true) (a : Nat) (v : Byte) : (m.write a v).read a = v :=
  read_write_same_from a v h

/-- A write in range keeps the canonical form from any start at or below the address. -/
theorem write_wfFrom {a : Nat} (ha : a ≤ 0xFFF) (v : Byte) :
    ∀ {lo : Nat} {m : Memory}, m.wfFrom lo = true → lo ≤ a → (m.write a v).wfFrom lo = true
  | lo, [], _, hlo => by
    by_cases hv : v = unlisted <;> simp_all [Memory.write, Memory.wfFrom]
  | lo, (k, b) :: m, hw, hlo => by
    have hw' := hw
    simp only [Memory.wfFrom, Bool.and_eq_true, decide_eq_true_eq] at hw
    obtain ⟨⟨⟨hk, hmax⟩, hb⟩, hm⟩ := hw
    simp only [Memory.write]
    split <;> rename_i h1
    · split <;> rename_i hv
      · exact hw'
      · simp only [Memory.wfFrom, Bool.and_eq_true, decide_eq_true_eq]
        exact ⟨⟨⟨hlo, ha⟩, hv⟩, ⟨⟨by omega, hmax⟩, hb⟩, hm⟩
    · split <;> rename_i h2
      · split <;> rename_i hv
        · exact wfFrom_mono hm (by omega)
        · simp only [Memory.wfFrom, Bool.and_eq_true, decide_eq_true_eq]
          exact ⟨⟨⟨hk, hmax⟩, hv⟩, hm⟩
      · simp only [Memory.wfFrom, Bool.and_eq_true, decide_eq_true_eq]
        exact ⟨⟨⟨hk, hmax⟩, hb⟩, write_wfFrom ha v hm (by omega)⟩
where
  /-- A form canonical from `lo` is canonical from any lower start. -/
  wfFrom_mono : ∀ {lo lo' : Nat} {m : Memory}, m.wfFrom lo' = true → lo ≤ lo' → m.wfFrom lo = true
    | _, _, [], _, _ => rfl
    | _, _, (k, b) :: m, hw, hl => by
      simp only [Memory.wfFrom, Bool.and_eq_true, decide_eq_true_eq] at hw ⊢
      exact ⟨⟨⟨by omega, hw.1.1.2⟩, hw.1.2⟩, hw.2⟩

/-- A write in range keeps the canonical form. -/
theorem write_wf {m : Memory} (h : m.wf = true) {a : Nat} (ha : a ≤ 0xFFF) (v : Byte) :
    (m.write a v).wf = true := write_wfFrom ha v h (Nat.zero_le a)

/-- The memory that lists nothing is canonical. -/
@[simp] theorem empty_wf : Memory.wf [] = true := rfl

/-! ## Lists of bytes -/

/-- A block store leaves every address outside the block alone. -/
theorem read_writeList_outside {c : Nat} : ∀ (bs : List Byte) (m : Memory) (a : Nat),
    (c < a ∨ a + bs.length ≤ c) → (m.writeList a bs).read c = m.read c
  | [], _, _, _ => rfl
  | b :: bs, m, a, h => by
    simp only [List.length_cons] at h
    rw [Memory.writeList, read_writeList_outside bs _ _ (by omega), read_write_of_ne (by omega)]

/-- A block store in range keeps the canonical form. -/
theorem writeList_wf : ∀ (bs : List Byte) {m : Memory} (a : Nat), m.wf = true →
    a + bs.length ≤ 0x1000 → (m.writeList a bs).wf = true
  | [], _, _, h, _ => h
  | b :: bs, m, a, h, hr => by
    simp only [List.length_cons] at hr
    exact writeList_wf bs (a + 1) (write_wf h (by omega) b) (by omega)

/-- A block store in range puts byte `k` of the list at `a + k`. -/
theorem read_writeList : ∀ (bs : List Byte) {m : Memory} (a k : Nat), m.wf = true →
    a + bs.length ≤ 0x1000 → (hk : k < bs.length) → (m.writeList a bs).read (a + k) = bs[k]
  | b :: bs, m, a, 0, h, hr, _ => by
    rw [Memory.writeList, read_writeList_outside bs _ _ (by omega)]
    simpa using read_write_same h a b
  | b :: bs, m, a, k + 1, h, hr, hk => by
    simp only [List.length_cons] at hr hk
    have hw := write_wf (a := a) h (by omega) b
    have := read_writeList bs (a + 1) k hw (by omega) (by omega)
    rw [Memory.writeList]
    simpa [Nat.add_assoc, Nat.add_comm 1 k] using this

@[simp] theorem readList_length (m : Memory) : ∀ n a, (m.readList a n).length = n
  | 0, _ => rfl
  | n + 1, a => by simp [Memory.readList, readList_length m n]

/-- Byte `k` of a block read is the byte at `a + k`. -/
theorem readList_getElem (m : Memory) : ∀ n a k (h : k < (m.readList a n).length),
    (m.readList a n)[k] = m.read (a + k)
  | n + 1, a, 0, _ => rfl
  | n + 1, a, k + 1, h => by
    simp only [Memory.readList, List.getElem_cons_succ]
    rw [readList_getElem m n (a + 1) k]
    congr 1
    omega

end Sys2Proof.Machine
end

