-- ==== Sys2Proof/Laws/State.lean ====
section
/-! SUPPORT. One lemma for each field of State and each operation that writes one, all by rfl: no later
proof unfolds a record update. -/

namespace Sys2Proof.Machine

/-! ### jump -/

@[simp] theorem jump_cfg (w : Word) (s : State) : (jump w s).cfg = s.cfg := rfl
@[simp] theorem jump_V (w : Word) (s : State) : (jump w s).V = s.V := rfl
@[simp] theorem jump_I (w : Word) (s : State) : (jump w s).I = s.I := rfl
@[simp] theorem jump_pc (w : Word) (s : State) : (jump w s).pc = w := rfl
@[simp] theorem jump_stack (w : Word) (s : State) : (jump w s).stack = s.stack := rfl
@[simp] theorem jump_sp (w : Word) (s : State) : (jump w s).sp = s.sp := rfl
@[simp] theorem jump_dt (w : Word) (s : State) : (jump w s).dt = s.dt := rfl
@[simp] theorem jump_st (w : Word) (s : State) : (jump w s).st = s.st := rfl
@[simp] theorem jump_fb (w : Word) (s : State) : (jump w s).fb = s.fb := rfl
@[simp] theorem jump_mem (w : Word) (s : State) : (jump w s).mem = s.mem := rfl
@[simp] theorem jump_keys (w : Word) (s : State) : (jump w s).keys = s.keys := rfl
@[simp] theorem jump_keyPrev (w : Word) (s : State) : (jump w s).keyPrev = s.keyPrev := rfl
@[simp] theorem jump_rnd (w : Word) (s : State) : (jump w s).rnd = s.rnd := rfl
@[simp] theorem jump_runState (w : Word) (s : State) : (jump w s).runState = s.runState := rfl
@[simp] theorem jump_fault (w : Word) (s : State) : (jump w s).fault = s.fault := rfl
@[simp] theorem jump_cancelLatch (w : Word) (s : State) : (jump w s).cancelLatch = s.cancelLatch := rfl
@[simp] theorem jump_events (w : Word) (s : State) : (jump w s).events = s.events := rfl
@[simp] theorem jump_agenda (w : Word) (s : State) : (jump w s).agenda = s.agenda := rfl
@[simp] theorem jump_freeIndex (w : Word) (s : State) : (jump w s).freeIndex = s.freeIndex := rfl
@[simp] theorem jump_stepHeld (w : Word) (s : State) : (jump w s).stepHeld = s.stepHeld := rfl
@[simp] theorem jump_reg (w : Word) (s : State) (q : Reg) : (jump w s).reg q = s.reg q := rfl

/-! ### advance -/

@[simp] theorem advance_cfg (s : State) : (advance s).cfg = s.cfg := rfl
@[simp] theorem advance_V (s : State) : (advance s).V = s.V := rfl
@[simp] theorem advance_I (s : State) : (advance s).I = s.I := rfl
@[simp] theorem advance_pc (s : State) : (advance s).pc = s.pc + 2 := rfl
@[simp] theorem advance_stack (s : State) : (advance s).stack = s.stack := rfl
@[simp] theorem advance_sp (s : State) : (advance s).sp = s.sp := rfl
@[simp] theorem advance_dt (s : State) : (advance s).dt = s.dt := rfl
@[simp] theorem advance_st (s : State) : (advance s).st = s.st := rfl
@[simp] theorem advance_fb (s : State) : (advance s).fb = s.fb := rfl
@[simp] theorem advance_mem (s : State) : (advance s).mem = s.mem := rfl
@[simp] theorem advance_keys (s : State) : (advance s).keys = s.keys := rfl
@[simp] theorem advance_keyPrev (s : State) : (advance s).keyPrev = s.keyPrev := rfl
@[simp] theorem advance_rnd (s : State) : (advance s).rnd = s.rnd := rfl
@[simp] theorem advance_runState (s : State) : (advance s).runState = s.runState := rfl
@[simp] theorem advance_fault (s : State) : (advance s).fault = s.fault := rfl
@[simp] theorem advance_cancelLatch (s : State) : (advance s).cancelLatch = s.cancelLatch := rfl
@[simp] theorem advance_events (s : State) : (advance s).events = s.events := rfl
@[simp] theorem advance_agenda (s : State) : (advance s).agenda = s.agenda := rfl
@[simp] theorem advance_freeIndex (s : State) : (advance s).freeIndex = s.freeIndex := rfl
@[simp] theorem advance_stepHeld (s : State) : (advance s).stepHeld = s.stepHeld := rfl
@[simp] theorem advance_reg (s : State) (q : Reg) : (advance s).reg q = s.reg q := rfl

/-! ### setReg -/

@[simp] theorem setReg_cfg (x : Reg) (b : Byte) (s : State) : (setReg x b s).cfg = s.cfg := rfl
@[simp] theorem setReg_V (x : Reg) (b : Byte) (s : State) : (setReg x b s).V = s.V.set x.val b := rfl
@[simp] theorem setReg_I (x : Reg) (b : Byte) (s : State) : (setReg x b s).I = s.I := rfl
@[simp] theorem setReg_pc (x : Reg) (b : Byte) (s : State) : (setReg x b s).pc = s.pc := rfl
@[simp] theorem setReg_stack (x : Reg) (b : Byte) (s : State) : (setReg x b s).stack = s.stack := rfl
@[simp] theorem setReg_sp (x : Reg) (b : Byte) (s : State) : (setReg x b s).sp = s.sp := rfl
@[simp] theorem setReg_dt (x : Reg) (b : Byte) (s : State) : (setReg x b s).dt = s.dt := rfl
@[simp] theorem setReg_st (x : Reg) (b : Byte) (s : State) : (setReg x b s).st = s.st := rfl
@[simp] theorem setReg_fb (x : Reg) (b : Byte) (s : State) : (setReg x b s).fb = s.fb := rfl
@[simp] theorem setReg_mem (x : Reg) (b : Byte) (s : State) : (setReg x b s).mem = s.mem := rfl
@[simp] theorem setReg_keys (x : Reg) (b : Byte) (s : State) : (setReg x b s).keys = s.keys := rfl
@[simp] theorem setReg_keyPrev (x : Reg) (b : Byte) (s : State) : (setReg x b s).keyPrev = s.keyPrev := rfl
@[simp] theorem setReg_rnd (x : Reg) (b : Byte) (s : State) : (setReg x b s).rnd = s.rnd := rfl
@[simp] theorem setReg_runState (x : Reg) (b : Byte) (s : State) : (setReg x b s).runState = s.runState := rfl
@[simp] theorem setReg_fault (x : Reg) (b : Byte) (s : State) : (setReg x b s).fault = s.fault := rfl
@[simp] theorem setReg_cancelLatch (x : Reg) (b : Byte) (s : State) : (setReg x b s).cancelLatch = s.cancelLatch := rfl
@[simp] theorem setReg_events (x : Reg) (b : Byte) (s : State) : (setReg x b s).events = s.events := rfl
@[simp] theorem setReg_agenda (x : Reg) (b : Byte) (s : State) : (setReg x b s).agenda = s.agenda := rfl
@[simp] theorem setReg_freeIndex (x : Reg) (b : Byte) (s : State) : (setReg x b s).freeIndex = s.freeIndex := rfl
@[simp] theorem setReg_stepHeld (x : Reg) (b : Byte) (s : State) : (setReg x b s).stepHeld = s.stepHeld := rfl

/-! ### setI -/

@[simp] theorem setI_cfg (w : Word) (s : State) : (setI w s).cfg = s.cfg := rfl
@[simp] theorem setI_V (w : Word) (s : State) : (setI w s).V = s.V := rfl
@[simp] theorem setI_I (w : Word) (s : State) : (setI w s).I = w := rfl
@[simp] theorem setI_pc (w : Word) (s : State) : (setI w s).pc = s.pc := rfl
@[simp] theorem setI_stack (w : Word) (s : State) : (setI w s).stack = s.stack := rfl
@[simp] theorem setI_sp (w : Word) (s : State) : (setI w s).sp = s.sp := rfl
@[simp] theorem setI_dt (w : Word) (s : State) : (setI w s).dt = s.dt := rfl
@[simp] theorem setI_st (w : Word) (s : State) : (setI w s).st = s.st := rfl
@[simp] theorem setI_fb (w : Word) (s : State) : (setI w s).fb = s.fb := rfl
@[simp] theorem setI_mem (w : Word) (s : State) : (setI w s).mem = s.mem := rfl
@[simp] theorem setI_keys (w : Word) (s : State) : (setI w s).keys = s.keys := rfl
@[simp] theorem setI_keyPrev (w : Word) (s : State) : (setI w s).keyPrev = s.keyPrev := rfl
@[simp] theorem setI_rnd (w : Word) (s : State) : (setI w s).rnd = s.rnd := rfl
@[simp] theorem setI_runState (w : Word) (s : State) : (setI w s).runState = s.runState := rfl
@[simp] theorem setI_fault (w : Word) (s : State) : (setI w s).fault = s.fault := rfl
@[simp] theorem setI_cancelLatch (w : Word) (s : State) : (setI w s).cancelLatch = s.cancelLatch := rfl
@[simp] theorem setI_events (w : Word) (s : State) : (setI w s).events = s.events := rfl
@[simp] theorem setI_agenda (w : Word) (s : State) : (setI w s).agenda = s.agenda := rfl
@[simp] theorem setI_freeIndex (w : Word) (s : State) : (setI w s).freeIndex = s.freeIndex := rfl
@[simp] theorem setI_stepHeld (w : Word) (s : State) : (setI w s).stepHeld = s.stepHeld := rfl
@[simp] theorem setI_reg (w : Word) (s : State) (q : Reg) : (setI w s).reg q = s.reg q := rfl

/-! ### setDt -/

@[simp] theorem setDt_cfg (b : Byte) (s : State) : (setDt b s).cfg = s.cfg := rfl
@[simp] theorem setDt_V (b : Byte) (s : State) : (setDt b s).V = s.V := rfl
@[simp] theorem setDt_I (b : Byte) (s : State) : (setDt b s).I = s.I := rfl
@[simp] theorem setDt_pc (b : Byte) (s : State) : (setDt b s).pc = s.pc := rfl
@[simp] theorem setDt_stack (b : Byte) (s : State) : (setDt b s).stack = s.stack := rfl
@[simp] theorem setDt_sp (b : Byte) (s : State) : (setDt b s).sp = s.sp := rfl
@[simp] theorem setDt_dt (b : Byte) (s : State) : (setDt b s).dt = b := rfl
@[simp] theorem setDt_st (b : Byte) (s : State) : (setDt b s).st = s.st := rfl
@[simp] theorem setDt_fb (b : Byte) (s : State) : (setDt b s).fb = s.fb := rfl
@[simp] theorem setDt_mem (b : Byte) (s : State) : (setDt b s).mem = s.mem := rfl
@[simp] theorem setDt_keys (b : Byte) (s : State) : (setDt b s).keys = s.keys := rfl
@[simp] theorem setDt_keyPrev (b : Byte) (s : State) : (setDt b s).keyPrev = s.keyPrev := rfl
@[simp] theorem setDt_rnd (b : Byte) (s : State) : (setDt b s).rnd = s.rnd := rfl
@[simp] theorem setDt_runState (b : Byte) (s : State) : (setDt b s).runState = s.runState := rfl
@[simp] theorem setDt_fault (b : Byte) (s : State) : (setDt b s).fault = s.fault := rfl
@[simp] theorem setDt_cancelLatch (b : Byte) (s : State) : (setDt b s).cancelLatch = s.cancelLatch := rfl
@[simp] theorem setDt_events (b : Byte) (s : State) : (setDt b s).events = s.events := rfl
@[simp] theorem setDt_agenda (b : Byte) (s : State) : (setDt b s).agenda = s.agenda := rfl
@[simp] theorem setDt_freeIndex (b : Byte) (s : State) : (setDt b s).freeIndex = s.freeIndex := rfl
@[simp] theorem setDt_stepHeld (b : Byte) (s : State) : (setDt b s).stepHeld = s.stepHeld := rfl
@[simp] theorem setDt_reg (b : Byte) (s : State) (q : Reg) : (setDt b s).reg q = s.reg q := rfl

/-! ### setSt -/

@[simp] theorem setSt_cfg (b : Byte) (s : State) : (setSt b s).cfg = s.cfg := rfl
@[simp] theorem setSt_V (b : Byte) (s : State) : (setSt b s).V = s.V := rfl
@[simp] theorem setSt_I (b : Byte) (s : State) : (setSt b s).I = s.I := rfl
@[simp] theorem setSt_pc (b : Byte) (s : State) : (setSt b s).pc = s.pc := rfl
@[simp] theorem setSt_stack (b : Byte) (s : State) : (setSt b s).stack = s.stack := rfl
@[simp] theorem setSt_sp (b : Byte) (s : State) : (setSt b s).sp = s.sp := rfl
@[simp] theorem setSt_dt (b : Byte) (s : State) : (setSt b s).dt = s.dt := rfl
@[simp] theorem setSt_st (b : Byte) (s : State) : (setSt b s).st = b := rfl
@[simp] theorem setSt_fb (b : Byte) (s : State) : (setSt b s).fb = s.fb := rfl
@[simp] theorem setSt_mem (b : Byte) (s : State) : (setSt b s).mem = s.mem := rfl
@[simp] theorem setSt_keys (b : Byte) (s : State) : (setSt b s).keys = s.keys := rfl
@[simp] theorem setSt_keyPrev (b : Byte) (s : State) : (setSt b s).keyPrev = s.keyPrev := rfl
@[simp] theorem setSt_rnd (b : Byte) (s : State) : (setSt b s).rnd = s.rnd := rfl
@[simp] theorem setSt_runState (b : Byte) (s : State) : (setSt b s).runState = s.runState := rfl
@[simp] theorem setSt_fault (b : Byte) (s : State) : (setSt b s).fault = s.fault := rfl
@[simp] theorem setSt_cancelLatch (b : Byte) (s : State) : (setSt b s).cancelLatch = s.cancelLatch := rfl
@[simp] theorem setSt_events (b : Byte) (s : State) : (setSt b s).events = s.events := rfl
@[simp] theorem setSt_agenda (b : Byte) (s : State) : (setSt b s).agenda = s.agenda := rfl
@[simp] theorem setSt_freeIndex (b : Byte) (s : State) : (setSt b s).freeIndex = s.freeIndex := rfl
@[simp] theorem setSt_stepHeld (b : Byte) (s : State) : (setSt b s).stepHeld = s.stepHeld := rfl
@[simp] theorem setSt_reg (b : Byte) (s : State) (q : Reg) : (setSt b s).reg q = s.reg q := rfl

/-! ### setMem -/

@[simp] theorem setMem_cfg (m : Memory) (s : State) : (setMem m s).cfg = s.cfg := rfl
@[simp] theorem setMem_V (m : Memory) (s : State) : (setMem m s).V = s.V := rfl
@[simp] theorem setMem_I (m : Memory) (s : State) : (setMem m s).I = s.I := rfl
@[simp] theorem setMem_pc (m : Memory) (s : State) : (setMem m s).pc = s.pc := rfl
@[simp] theorem setMem_stack (m : Memory) (s : State) : (setMem m s).stack = s.stack := rfl
@[simp] theorem setMem_sp (m : Memory) (s : State) : (setMem m s).sp = s.sp := rfl
@[simp] theorem setMem_dt (m : Memory) (s : State) : (setMem m s).dt = s.dt := rfl
@[simp] theorem setMem_st (m : Memory) (s : State) : (setMem m s).st = s.st := rfl
@[simp] theorem setMem_fb (m : Memory) (s : State) : (setMem m s).fb = s.fb := rfl
@[simp] theorem setMem_mem (m : Memory) (s : State) : (setMem m s).mem = m := rfl
@[simp] theorem setMem_keys (m : Memory) (s : State) : (setMem m s).keys = s.keys := rfl
@[simp] theorem setMem_keyPrev (m : Memory) (s : State) : (setMem m s).keyPrev = s.keyPrev := rfl
@[simp] theorem setMem_rnd (m : Memory) (s : State) : (setMem m s).rnd = s.rnd := rfl
@[simp] theorem setMem_runState (m : Memory) (s : State) : (setMem m s).runState = s.runState := rfl
@[simp] theorem setMem_fault (m : Memory) (s : State) : (setMem m s).fault = s.fault := rfl
@[simp] theorem setMem_cancelLatch (m : Memory) (s : State) : (setMem m s).cancelLatch = s.cancelLatch := rfl
@[simp] theorem setMem_events (m : Memory) (s : State) : (setMem m s).events = s.events := rfl
@[simp] theorem setMem_agenda (m : Memory) (s : State) : (setMem m s).agenda = s.agenda := rfl
@[simp] theorem setMem_freeIndex (m : Memory) (s : State) : (setMem m s).freeIndex = s.freeIndex := rfl
@[simp] theorem setMem_stepHeld (m : Memory) (s : State) : (setMem m s).stepHeld = s.stepHeld := rfl
@[simp] theorem setMem_reg (m : Memory) (s : State) (q : Reg) : (setMem m s).reg q = s.reg q := rfl

/-! ### setFb -/

@[simp] theorem setFb_cfg (f : Vector PixelRow 32) (s : State) : (setFb f s).cfg = s.cfg := rfl
@[simp] theorem setFb_V (f : Vector PixelRow 32) (s : State) : (setFb f s).V = s.V := rfl
@[simp] theorem setFb_I (f : Vector PixelRow 32) (s : State) : (setFb f s).I = s.I := rfl
@[simp] theorem setFb_pc (f : Vector PixelRow 32) (s : State) : (setFb f s).pc = s.pc := rfl
@[simp] theorem setFb_stack (f : Vector PixelRow 32) (s : State) : (setFb f s).stack = s.stack := rfl
@[simp] theorem setFb_sp (f : Vector PixelRow 32) (s : State) : (setFb f s).sp = s.sp := rfl
@[simp] theorem setFb_dt (f : Vector PixelRow 32) (s : State) : (setFb f s).dt = s.dt := rfl
@[simp] theorem setFb_st (f : Vector PixelRow 32) (s : State) : (setFb f s).st = s.st := rfl
@[simp] theorem setFb_fb (f : Vector PixelRow 32) (s : State) : (setFb f s).fb = f := rfl
@[simp] theorem setFb_mem (f : Vector PixelRow 32) (s : State) : (setFb f s).mem = s.mem := rfl
@[simp] theorem setFb_keys (f : Vector PixelRow 32) (s : State) : (setFb f s).keys = s.keys := rfl
@[simp] theorem setFb_keyPrev (f : Vector PixelRow 32) (s : State) : (setFb f s).keyPrev = s.keyPrev := rfl
@[simp] theorem setFb_rnd (f : Vector PixelRow 32) (s : State) : (setFb f s).rnd = s.rnd := rfl
@[simp] theorem setFb_runState (f : Vector PixelRow 32) (s : State) : (setFb f s).runState = s.runState := rfl
@[simp] theorem setFb_fault (f : Vector PixelRow 32) (s : State) : (setFb f s).fault = s.fault := rfl
@[simp] theorem setFb_cancelLatch (f : Vector PixelRow 32) (s : State) : (setFb f s).cancelLatch = s.cancelLatch := rfl
@[simp] theorem setFb_events (f : Vector PixelRow 32) (s : State) : (setFb f s).events = s.events := rfl
@[simp] theorem setFb_agenda (f : Vector PixelRow 32) (s : State) : (setFb f s).agenda = s.agenda := rfl
@[simp] theorem setFb_freeIndex (f : Vector PixelRow 32) (s : State) : (setFb f s).freeIndex = s.freeIndex := rfl
@[simp] theorem setFb_stepHeld (f : Vector PixelRow 32) (s : State) : (setFb f s).stepHeld = s.stepHeld := rfl
@[simp] theorem setFb_reg (f : Vector PixelRow 32) (s : State) (q : Reg) : (setFb f s).reg q = s.reg q := rfl

/-! ### report -/

@[simp] theorem report_cfg (c : Cause) (a i : Word) (s : State) : (report c a i s).cfg = s.cfg := rfl
@[simp] theorem report_V (c : Cause) (a i : Word) (s : State) : (report c a i s).V = s.V := rfl
@[simp] theorem report_I (c : Cause) (a i : Word) (s : State) : (report c a i s).I = s.I := rfl
@[simp] theorem report_pc (c : Cause) (a i : Word) (s : State) : (report c a i s).pc = s.pc := rfl
@[simp] theorem report_stack (c : Cause) (a i : Word) (s : State) : (report c a i s).stack = s.stack := rfl
@[simp] theorem report_sp (c : Cause) (a i : Word) (s : State) : (report c a i s).sp = s.sp := rfl
@[simp] theorem report_dt (c : Cause) (a i : Word) (s : State) : (report c a i s).dt = s.dt := rfl
@[simp] theorem report_st (c : Cause) (a i : Word) (s : State) : (report c a i s).st = s.st := rfl
@[simp] theorem report_fb (c : Cause) (a i : Word) (s : State) : (report c a i s).fb = s.fb := rfl
@[simp] theorem report_mem (c : Cause) (a i : Word) (s : State) : (report c a i s).mem = s.mem := rfl
@[simp] theorem report_keys (c : Cause) (a i : Word) (s : State) : (report c a i s).keys = s.keys := rfl
@[simp] theorem report_keyPrev (c : Cause) (a i : Word) (s : State) : (report c a i s).keyPrev = s.keyPrev := rfl
@[simp] theorem report_rnd (c : Cause) (a i : Word) (s : State) : (report c a i s).rnd = s.rnd := rfl
@[simp] theorem report_runState (c : Cause) (a i : Word) (s : State) : (report c a i s).runState = s.runState := rfl
@[simp] theorem report_fault (c : Cause) (a i : Word) (s : State) : (report c a i s).fault = s.fault := rfl
@[simp] theorem report_cancelLatch (c : Cause) (a i : Word) (s : State) : (report c a i s).cancelLatch = s.cancelLatch := rfl
@[simp] theorem report_events (c : Cause) (a i : Word) (s : State) : (report c a i s).events = s.events ++ [⟨c, a, i⟩] := rfl
@[simp] theorem report_agenda (c : Cause) (a i : Word) (s : State) : (report c a i s).agenda = s.agenda := rfl
@[simp] theorem report_freeIndex (c : Cause) (a i : Word) (s : State) : (report c a i s).freeIndex = s.freeIndex := rfl
@[simp] theorem report_stepHeld (c : Cause) (a i : Word) (s : State) : (report c a i s).stepHeld = s.stepHeld := rfl
@[simp] theorem report_reg (c : Cause) (a i : Word) (s : State) (q : Reg) : (report c a i s).reg q = s.reg q := rfl

/-! ### sample -/

@[simp] theorem sample_cfg (k : KeySet) (r : Byte) (s : State) : (sample k r s).cfg = s.cfg := rfl
@[simp] theorem sample_V (k : KeySet) (r : Byte) (s : State) : (sample k r s).V = s.V := rfl
@[simp] theorem sample_I (k : KeySet) (r : Byte) (s : State) : (sample k r s).I = s.I := rfl
@[simp] theorem sample_pc (k : KeySet) (r : Byte) (s : State) : (sample k r s).pc = s.pc := rfl
@[simp] theorem sample_stack (k : KeySet) (r : Byte) (s : State) : (sample k r s).stack = s.stack := rfl
@[simp] theorem sample_sp (k : KeySet) (r : Byte) (s : State) : (sample k r s).sp = s.sp := rfl
@[simp] theorem sample_dt (k : KeySet) (r : Byte) (s : State) : (sample k r s).dt = s.dt := rfl
@[simp] theorem sample_st (k : KeySet) (r : Byte) (s : State) : (sample k r s).st = s.st := rfl
@[simp] theorem sample_fb (k : KeySet) (r : Byte) (s : State) : (sample k r s).fb = s.fb := rfl
@[simp] theorem sample_mem (k : KeySet) (r : Byte) (s : State) : (sample k r s).mem = s.mem := rfl
@[simp] theorem sample_keys (k : KeySet) (r : Byte) (s : State) : (sample k r s).keys = k := rfl
@[simp] theorem sample_keyPrev (k : KeySet) (r : Byte) (s : State) : (sample k r s).keyPrev = s.keyPrev := rfl
@[simp] theorem sample_rnd (k : KeySet) (r : Byte) (s : State) : (sample k r s).rnd = r := rfl
@[simp] theorem sample_runState (k : KeySet) (r : Byte) (s : State) : (sample k r s).runState = s.runState := rfl
@[simp] theorem sample_fault (k : KeySet) (r : Byte) (s : State) : (sample k r s).fault = s.fault := rfl
@[simp] theorem sample_cancelLatch (k : KeySet) (r : Byte) (s : State) : (sample k r s).cancelLatch = s.cancelLatch := rfl
@[simp] theorem sample_events (k : KeySet) (r : Byte) (s : State) : (sample k r s).events = s.events := rfl
@[simp] theorem sample_agenda (k : KeySet) (r : Byte) (s : State) : (sample k r s).agenda = s.agenda := rfl
@[simp] theorem sample_freeIndex (k : KeySet) (r : Byte) (s : State) : (sample k r s).freeIndex = s.freeIndex := rfl
@[simp] theorem sample_stepHeld (k : KeySet) (r : Byte) (s : State) : (sample k r s).stepHeld = s.stepHeld := rfl
@[simp] theorem sample_reg (k : KeySet) (r : Byte) (s : State) (q : Reg) : (sample k r s).reg q = s.reg q := rfl

/-! ### keepKeys -/

@[simp] theorem keepKeys_cfg (s : State) : (keepKeys s).cfg = s.cfg := rfl
@[simp] theorem keepKeys_V (s : State) : (keepKeys s).V = s.V := rfl
@[simp] theorem keepKeys_I (s : State) : (keepKeys s).I = s.I := rfl
@[simp] theorem keepKeys_pc (s : State) : (keepKeys s).pc = s.pc := rfl
@[simp] theorem keepKeys_stack (s : State) : (keepKeys s).stack = s.stack := rfl
@[simp] theorem keepKeys_sp (s : State) : (keepKeys s).sp = s.sp := rfl
@[simp] theorem keepKeys_dt (s : State) : (keepKeys s).dt = s.dt := rfl
@[simp] theorem keepKeys_st (s : State) : (keepKeys s).st = s.st := rfl
@[simp] theorem keepKeys_fb (s : State) : (keepKeys s).fb = s.fb := rfl
@[simp] theorem keepKeys_mem (s : State) : (keepKeys s).mem = s.mem := rfl
@[simp] theorem keepKeys_keys (s : State) : (keepKeys s).keys = s.keys := rfl
@[simp] theorem keepKeys_keyPrev (s : State) : (keepKeys s).keyPrev = s.keys := rfl
@[simp] theorem keepKeys_rnd (s : State) : (keepKeys s).rnd = s.rnd := rfl
@[simp] theorem keepKeys_runState (s : State) : (keepKeys s).runState = s.runState := rfl
@[simp] theorem keepKeys_fault (s : State) : (keepKeys s).fault = s.fault := rfl
@[simp] theorem keepKeys_cancelLatch (s : State) : (keepKeys s).cancelLatch = s.cancelLatch := rfl
@[simp] theorem keepKeys_events (s : State) : (keepKeys s).events = s.events := rfl
@[simp] theorem keepKeys_agenda (s : State) : (keepKeys s).agenda = s.agenda := rfl
@[simp] theorem keepKeys_freeIndex (s : State) : (keepKeys s).freeIndex = s.freeIndex := rfl
@[simp] theorem keepKeys_stepHeld (s : State) : (keepKeys s).stepHeld = s.stepHeld := rfl
@[simp] theorem keepKeys_reg (s : State) (q : Reg) : (keepKeys s).reg q = s.reg q := rfl

/-! ### halt -/

@[simp] theorem halt_cfg (c : FatalCause) (g : Stage) (a i d : Word) (s : State) : (halt c g a i d s).cfg = s.cfg := rfl
@[simp] theorem halt_V (c : FatalCause) (g : Stage) (a i d : Word) (s : State) : (halt c g a i d s).V = s.V := rfl
@[simp] theorem halt_I (c : FatalCause) (g : Stage) (a i d : Word) (s : State) : (halt c g a i d s).I = s.I := rfl
@[simp] theorem halt_pc (c : FatalCause) (g : Stage) (a i d : Word) (s : State) : (halt c g a i d s).pc = s.pc := rfl
@[simp] theorem halt_stack (c : FatalCause) (g : Stage) (a i d : Word) (s : State) : (halt c g a i d s).stack = s.stack := rfl
@[simp] theorem halt_sp (c : FatalCause) (g : Stage) (a i d : Word) (s : State) : (halt c g a i d s).sp = s.sp := rfl
@[simp] theorem halt_dt (c : FatalCause) (g : Stage) (a i d : Word) (s : State) : (halt c g a i d s).dt = s.dt := rfl
@[simp] theorem halt_st (c : FatalCause) (g : Stage) (a i d : Word) (s : State) : (halt c g a i d s).st = s.st := rfl
@[simp] theorem halt_fb (c : FatalCause) (g : Stage) (a i d : Word) (s : State) : (halt c g a i d s).fb = s.fb := rfl
@[simp] theorem halt_mem (c : FatalCause) (g : Stage) (a i d : Word) (s : State) : (halt c g a i d s).mem = s.mem := rfl
@[simp] theorem halt_keys (c : FatalCause) (g : Stage) (a i d : Word) (s : State) : (halt c g a i d s).keys = s.keys := rfl
@[simp] theorem halt_keyPrev (c : FatalCause) (g : Stage) (a i d : Word) (s : State) : (halt c g a i d s).keyPrev = s.keyPrev := rfl
@[simp] theorem halt_rnd (c : FatalCause) (g : Stage) (a i d : Word) (s : State) : (halt c g a i d s).rnd = s.rnd := rfl
@[simp] theorem halt_runState (c : FatalCause) (g : Stage) (a i d : Word) (s : State) : (halt c g a i d s).runState = .halted := rfl
@[simp] theorem halt_fault (c : FatalCause) (g : Stage) (a i d : Word) (s : State) : (halt c g a i d s).fault = ⟨c.cause, g, a, i, d⟩ := rfl
@[simp] theorem halt_cancelLatch (c : FatalCause) (g : Stage) (a i d : Word) (s : State) : (halt c g a i d s).cancelLatch = s.cancelLatch := rfl
@[simp] theorem halt_events (c : FatalCause) (g : Stage) (a i d : Word) (s : State) : (halt c g a i d s).events = s.events := rfl
@[simp] theorem halt_agenda (c : FatalCause) (g : Stage) (a i d : Word) (s : State) : (halt c g a i d s).agenda = s.agenda := rfl
@[simp] theorem halt_freeIndex (c : FatalCause) (g : Stage) (a i d : Word) (s : State) : (halt c g a i d s).freeIndex = s.freeIndex := rfl
@[simp] theorem halt_stepHeld (c : FatalCause) (g : Stage) (a i d : Word) (s : State) : (halt c g a i d s).stepHeld = s.stepHeld := rfl
@[simp] theorem halt_reg (c : FatalCause) (g : Stage) (a i d : Word) (s : State) (q : Reg) : (halt c g a i d s).reg q = s.reg q := rfl

/-! ### honourCancel -/

@[simp] theorem honourCancel_cfg (s : State) : (honourCancel s).cfg = s.cfg := rfl
@[simp] theorem honourCancel_V (s : State) : (honourCancel s).V = s.V := rfl
@[simp] theorem honourCancel_I (s : State) : (honourCancel s).I = s.I := rfl
@[simp] theorem honourCancel_pc (s : State) : (honourCancel s).pc = s.pc := rfl
@[simp] theorem honourCancel_stack (s : State) : (honourCancel s).stack = s.stack := rfl
@[simp] theorem honourCancel_sp (s : State) : (honourCancel s).sp = s.sp := rfl
@[simp] theorem honourCancel_dt (s : State) : (honourCancel s).dt = s.dt := rfl
@[simp] theorem honourCancel_st (s : State) : (honourCancel s).st = s.st := rfl
@[simp] theorem honourCancel_fb (s : State) : (honourCancel s).fb = s.fb := rfl
@[simp] theorem honourCancel_mem (s : State) : (honourCancel s).mem = s.mem := rfl
@[simp] theorem honourCancel_keys (s : State) : (honourCancel s).keys = s.keys := rfl
@[simp] theorem honourCancel_keyPrev (s : State) : (honourCancel s).keyPrev = s.keyPrev := rfl
@[simp] theorem honourCancel_rnd (s : State) : (honourCancel s).rnd = s.rnd := rfl
@[simp] theorem honourCancel_runState (s : State) : (honourCancel s).runState = .stopped := rfl
@[simp] theorem honourCancel_fault (s : State) : (honourCancel s).fault = s.fault := rfl
@[simp] theorem honourCancel_cancelLatch (s : State) : (honourCancel s).cancelLatch = s.cancelLatch := rfl
@[simp] theorem honourCancel_events (s : State) : (honourCancel s).events = s.events := rfl
@[simp] theorem honourCancel_agenda (s : State) : (honourCancel s).agenda = s.agenda := rfl
@[simp] theorem honourCancel_freeIndex (s : State) : (honourCancel s).freeIndex = s.freeIndex := rfl
@[simp] theorem honourCancel_stepHeld (s : State) : (honourCancel s).stepHeld = s.stepHeld := rfl
@[simp] theorem honourCancel_reg (s : State) (q : Reg) : (honourCancel s).reg q = s.reg q := rfl

/-- The register written reads as what was written. -/
@[simp] theorem setReg_reg_self (x : Reg) (b : Byte) (s : State) : (setReg x b s).reg x = b := by
  simp [State.reg, setReg]

/-- Every other register reads as before. -/
theorem setReg_reg_of_ne {x r : Reg} (h : r ≠ x) (b : Byte) (s : State) : (setReg x b s).reg r = s.reg r := by
  have h' : x.val ≠ r.val := fun e => h (Fin.ext e.symm)
  simp [State.reg, setReg, h']

/-- A register write, read back at any register. -/
theorem setReg_reg (x r : Reg) (b : Byte) (s : State) :
    (setReg x b s).reg r = if r = x then b else s.reg r := by
  split
  · next h => rw [h, setReg_reg_self]
  · next h => exact setReg_reg_of_ne h b s

end Sys2Proof.Machine
end

