-- ==== Sys2Proof/Laws/Ops.lean ====
section
/-! SUPPORT. For each shared operation, once, everything it can do. -/

namespace Sys2Proof.Machine

/-! ## Stack -/

/-- A push that answers stores its value at SP and counts it (10_state.md R30). -/
theorem push_eq_some {v : Word} {s s' : State} (h : push v s = some s') :
    s.sp < s.cfg.stackCapacity ∧ s' = { s with stack := s.stack.set s.sp v, sp := s.sp + 1 } := by
  unfold push at h
  split at h
  · simp at h
  · simp only [Option.some.injEq] at h
    exact ⟨by omega, h.symm⟩

/-- A push fails exactly on a full stack. -/
theorem push_eq_none {v : Word} {s : State} : push v s = none ↔ s.cfg.stackCapacity ≤ s.sp := by
  unfold push
  split <;> simp_all

/-- A pop that answers gives the entry below SP and counts it off (10_state.md R30). -/
theorem pop_eq_some {w : Word} {s s' : State} (h : pop s = some (w, s')) :
    0 < s.sp ∧ w = s.stack.getD (s.sp - 1) 0 ∧ s' = { s with sp := s.sp - 1 } := by
  unfold pop at h
  split at h
  · simp at h
  · simp only [Option.some.injEq, Prod.mk.injEq] at h
    exact ⟨by omega, h.1.symm, h.2.symm⟩

/-- A pop fails exactly on an empty stack. -/
theorem pop_eq_none {s : State} : pop s = none ↔ s.sp = 0 := by
  unfold pop
  split <;> simp_all

/-! ## Faults -/

/-- Raising is the fault outcome with the halted state. -/
theorem raiseExecute_eq (c : FatalCause) (insn addr : Word) (s : State) :
    raiseExecute c insn addr s = .fault (c.fault (halt c .execute (s.pc - 2) insn addr s)) := rfl

/-- The halted state a fault carries. -/
@[simp] theorem FatalCause.fault_halted (c : FatalCause) (s : State) : (c.fault s).halted = s := by
  cases c <;> rfl

/-- Raising gives no next state. -/
@[simp] theorem raiseExecute_ne_next (c : FatalCause) (insn addr : Word) (s t : State) :
    raiseExecute c insn addr s ≠ .next t := nofun

/-- Raising is no refusal. -/
@[simp] theorem raiseExecute_ne_refused (c : FatalCause) (insn addr : Word) (s : State) (r : Refusal) :
    raiseExecute c insn addr s ≠ .refused r := nofun

/-! ## Ranges -/

theorem rangeFaults_eq_true {base n : Nat} : rangeFaults base n = true ↔ 0 < n ∧ base + n - 1 > 0xFFF := by
  simp [rangeFaults]

theorem rangeFaults_eq_false {base n : Nat} : rangeFaults base n = false ↔ n = 0 ∨ base + n - 1 ≤ 0xFFF := by
  rw [← Bool.not_eq_true, rangeFaults_eq_true]
  omega

theorem blockFaults_strict {base : Nat} {x : Reg} :
    blockFaults .strict base x = true ↔ base + x.val + 1 > 0xFFF := by simp [blockFaults]

theorem blockFaults_lenient {base : Nat} {x : Reg} :
    blockFaults .lenient base x = true ↔ base + x.val > 0xFFF := by simp [blockFaults]

/-! ## Registers as blocks -/

/-- Filling registers from `k` on: register `j` takes byte `j - k` where the list reaches it. -/
theorem fillRegs_getElem : ∀ (bs : List Byte) (V : Vector Byte 16) (k j : Nat) (hj : j < 16),
    (fillRegs V k bs)[j] = if h : k ≤ j ∧ j - k < bs.length then bs[j - k] else V[j]
  | [], V, k, j, hj => by simp [fillRegs]
  | b :: bs, V, k, j, hj => by
    rw [fillRegs, fillRegs_getElem bs _ (k + 1) j hj]
    by_cases h1 : k = j
    · subst h1
      simp
    · by_cases h2 : k + 1 ≤ j ∧ j - (k + 1) < bs.length
      · have e : j - k = j - (k + 1) + 1 := by omega
        have h3 : k ≤ j ∧ j - k < (b :: bs).length := by simp only [List.length_cons]; omega
        rw [dif_pos h2, dif_pos h3]
        simp [e]
      · have h3 : ¬(k ≤ j ∧ j - k < (b :: bs).length) := by simp only [List.length_cons]; omega
        rw [dif_neg h2, dif_neg h3]
        simp [h1]

@[simp] theorem regsUpTo_length (V : Vector Byte 16) (x : Reg) : (regsUpTo V x).length = x.val + 1 := by
  simp [regsUpTo]

/-- Byte `k` of the block V0 to Vx is Vk. -/
theorem regsUpTo_getElem (V : Vector Byte 16) (x : Reg) (k : Nat) (h : k < (regsUpTo V x).length)
    (hk : k < 16) : (regsUpTo V x)[k] = V[k] := by
  simp [regsUpTo]

/-! ## Flags -/

@[simp] theorem flagByte_toNat (c : Bool) : (flagByte c).toNat = if c then 1 else 0 := by cases c <;> rfl

theorem flagByte_zero_or_one (c : Bool) : flagByte c = 0 ∨ flagByte c = 1 := by cases c <;> simp [flagByte]

/-- After the result and the flag VF holds the flag, whatever the destination (42_alu.md R160). -/
@[simp] theorem setResultAndFlag_reg_VF (x : Reg) (b : Byte) (c : Bool) (s : State) :
    (setResultAndFlag x b c s).reg VF = flagByte c := by simp [setResultAndFlag, setFlag]

/-- Any other destination holds the result. -/
theorem setResultAndFlag_reg_dest {x : Reg} (h : x ≠ VF) (b : Byte) (c : Bool) (s : State) :
    (setResultAndFlag x b c s).reg x = b := by
  simp [setResultAndFlag, setFlag, setReg_reg_of_ne h]

/-- Registers other than the destination and VF are as before. -/
theorem setResultAndFlag_reg_other {x r : Reg} (h : r ≠ x) (hf : r ≠ VF) (b : Byte) (c : Bool) (s : State) :
    (setResultAndFlag x b c s).reg r = s.reg r := by
  simp [setResultAndFlag, setFlag, setReg_reg_of_ne hf, setReg_reg_of_ne h]

/-! ## Keys -/

/-- The key found is newly pressed and the lowest such key (44_timers_input.md R245). -/
theorem lowestNewKey_eq_some {keys keyPrev : KeySet} {k : Nat} (h : lowestNewKey keys keyPrev = some k) :
    k < 16 ∧ keyDown (newlyPressed keys keyPrev) k = true ∧
      ∀ j, j < k → keyDown (newlyPressed keys keyPrev) j = false := by
  unfold lowestNewKey at h
  rw [List.find?_range_eq_some] at h
  obtain ⟨h1, h2, h3⟩ := h
  exact ⟨by simpa using h2, h1, fun j hj => by simpa using h3 j hj⟩

/-- No key is found exactly when none is newly pressed. -/
theorem lowestNewKey_eq_none {keys keyPrev : KeySet} :
    lowestNewKey keys keyPrev = none ↔ ∀ k, k < 16 → keyDown (newlyPressed keys keyPrev) k = false := by
  simp [lowestNewKey, List.find?_eq_none]

/-- A key is newly pressed when it is down now and was up before (44_timers_input.md R247). -/
theorem keyDown_newlyPressed {keys keyPrev : KeySet} {k : Nat} (h : k < 16) :
    keyDown (newlyPressed keys keyPrev) k = (keyDown keys k && !keyDown keyPrev k) := by
  simp [keyDown, newlyPressed, h]

/-! ## The cycle's end -/

/-- A cycle completes exactly when its execution does; KeyPrev then holds the sampled keys. -/
theorem finishCycle_eq_next {o : Host.Outcome State Fault Refusal} {t : State} :
    finishCycle o = .next t ↔ ∃ u, o = .next u ∧ t = keepKeys u := by
  cases o <;> simp [finishCycle, eq_comm]

theorem finishCycle_eq_fault {o : Host.Outcome State Fault Refusal} {f : Fault} :
    finishCycle o = .fault f ↔ o = .fault f := by
  cases o <;> simp [finishCycle]

/-- A word runs as the instruction it decodes to. -/
theorem execute_of_decode {w : Word} {i : Instr} (h : decode w = .ok i) (s : State) :
    execute w s = exec i s := by simp [execute, h]

/-- A rejected word is reported. -/
theorem execute_of_reject {w : Word} {e : Reject} (h : decode w = .error e) (s : State) :
    execute w s = .next (report .unknownOpcode (insnAddr s) w s) := by simp [execute, h]

end Sys2Proof.Machine
end

