-- ==== Sys2Proof/Laws/Cycle.lean ====
section
/-! SUPPORT. The cycle and the step: once, everything each can do. -/

namespace Sys2Proof.Machine

/-! ## Fetch -/

theorem fetchFaults_eq_true {pc : Word} : fetchFaults pc = true ↔ pc.toNat + 1 > 0xFFF := by
  simp [fetchFaults]

theorem fetchFaults_eq_false {pc : Word} : fetchFaults pc = false ↔ pc.toNat + 1 ≤ 0xFFF := by
  simp [fetchFaults]

/-- The fetch looks at pc and memory alone. -/
@[simp] theorem fetchWord_sample (keys : KeySet) (rnd : Byte) (s : State) :
    fetchWord (sample keys rnd s) = fetchWord s := rfl

/-! ## The cycle -/

/-- A cycle whose fetch does not fault runs the word fetched (30_encoding.md R80). -/
theorem cycle_of_fetch {s : State} (h : s.pc.toNat + 1 ≤ 0xFFF) (keys : KeySet) (rnd : Byte) :
    cycle keys rnd s = finishCycle (execute (fetchWord s) (advance (sample keys rnd s))) := by
  have hf : fetchFaults (sample keys rnd s).pc = false := fetchFaults_eq_false.2 h
  rw [cycle, fetchExecute, if_neg (Bool.eq_false_iff.1 hf), fetchWord_sample]

/-- A cycle whose word decodes is that instruction's meaning (30_encoding.md R80). -/
theorem cycle_of_decode {s : State} (h : s.pc.toNat + 1 ≤ 0xFFF) {i : Instr}
    (hd : decode (fetchWord s) = .ok i) (keys : KeySet) (rnd : Byte) :
    cycle keys rnd s = finishCycle (exec i (advance (sample keys rnd s))) := by
  rw [cycle_of_fetch h, execute_of_decode hd]

/-- A cycle whose word is rejected completes with a report (30_encoding.md R88). -/
theorem cycle_of_reject {s : State} (h : s.pc.toNat + 1 ≤ 0xFFF) {e : Reject}
    (hd : decode (fetchWord s) = .error e) (keys : KeySet) (rnd : Byte) :
    cycle keys rnd s = .next (keepKeys (report .unknownOpcode (insnAddr (advance (sample keys rnd s)))
      (fetchWord s) (advance (sample keys rnd s)))) := by
  rw [cycle_of_fetch h, execute_of_reject hd, finishCycle]

/-- A cycle whose fetch faults (30_encoding.md R81). -/
theorem cycle_of_fetchFault {s : State} (h : s.pc.toNat + 1 > 0xFFF) (keys : KeySet) (rnd : Byte) :
    cycle keys rnd s = .fault (.memoryFault
      (halt .memoryFault .fetch s.pc 0 (fetchFaultAddr s.pc) (sample keys rnd s))) := by
  have hf : fetchFaults (sample keys rnd s).pc = true := fetchFaults_eq_true.2 h
  rw [cycle, fetchExecute, if_pos hf]
  rfl

/-! ## The step -/

/-- A due cancellation takes the step (60_exceptions.md R280). -/
theorem step_of_cancelDue {s : State} (h : cancelDue s = true) : step s = .next (honourCancel s) := by
  rw [step, boundaryStep, if_pos h]

/-- Otherwise the head of the agenda does. -/
theorem step_of_request {s : State} {r : Request} {rest : List Request} (ha : s.agenda = r :: rest)
    (h : cancelDue s = false) : step s = deliver r { s with agenda := rest } := by
  rw [step, boundaryStep, if_neg (by simp [h]), serve, ha]

/-- A `step` request in a RUNNING core is a cycle (30_encoding.md R80). -/
theorem deliver_step {s : State} (h : s.runState = .running) (keys : KeySet) (rnd : Byte) :
    deliver (.step keys rnd) s = cycle keys rnd s := by
  rw [deliver, if_pos h]

/-- With nothing on the agenda the level of `step` decides. -/
theorem step_of_nil {s : State} (ha : s.agenda = []) (h : cancelDue s = false) : step s = freeRun s := by
  rw [step, boundaryStep, if_neg (by simp [h]), serve, ha]

/-- `step` held: a RUNNING core with nothing queued runs a cycle on free inputs. -/
theorem step_of_held {s : State} (ha : s.agenda = []) (hh : s.stepHeld = true) (hr : s.runState = .running)
    (h : cancelDue s = false) :
    step s = cycle (Config.freeKeys s.freeIndex) (Config.freeRnd s.freeIndex)
      { s with freeIndex := s.freeIndex + 1 } := by
  rw [step_of_nil ha h, freeRun, if_pos ⟨hh, hr⟩]

/-- Nothing is asked for, or the core does not run: the step leaves the state as it is (30_encoding.md R80). -/
theorem step_of_idle_host {s : State} (ha : s.agenda = []) (hn : ¬(s.stepHeld = true ∧ s.runState = .running))
    (h : cancelDue s = false) : step s = .next s := by
  rw [step_of_nil ha h, freeRun, if_neg hn]

/-- No cancellation is due in a core that does not run. -/
theorem cancelDue_of_not_running {s : State} (h : s.runState ≠ .running) : cancelDue s = false := by
  simp [cancelDue, h]

/-- No cancellation is due without a latched request. -/
theorem cancelDue_of_latch {s : State} (h : s.cancelLatch = false) : cancelDue s = false := by
  simp [cancelDue, h]

/-- A cycle that completes: its word ran, or was reported. -/
theorem cycle_eq_next {keys : KeySet} {rnd : Byte} {s t : State} (h : cycle keys rnd s = .next t) :
    s.pc.toNat + 1 ≤ 0xFFF ∧
      ((∃ i u, decode (fetchWord s) = .ok i ∧ exec i (advance (sample keys rnd s)) = .next u ∧ t = keepKeys u) ∨
       (∃ e, decode (fetchWord s) = .error e ∧ t = keepKeys (report .unknownOpcode
          (insnAddr (advance (sample keys rnd s))) (fetchWord s) (advance (sample keys rnd s))))) := by
  by_cases hp : s.pc.toNat + 1 ≤ 0xFFF
  · refine ⟨hp, ?_⟩
    cases hd : decode (fetchWord s) with
    | ok i =>
      rw [cycle_of_decode hp hd, finishCycle_eq_next] at h
      obtain ⟨u, hu, ht⟩ := h
      exact .inl ⟨i, u, rfl, hu, ht⟩
    | error e =>
      rw [cycle_of_reject hp hd] at h
      injection h with h
      exact .inr ⟨e, rfl, h.symm⟩
  · rw [cycle_of_fetchFault (by omega)] at h
    cases h

/-- A cycle that faults: in the fetch, or in the meaning. -/
theorem cycle_eq_fault {keys : KeySet} {rnd : Byte} {s : State} {f : Fault} (h : cycle keys rnd s = .fault f) :
    (s.pc.toNat + 1 > 0xFFF ∧ f = .memoryFault
        (halt .memoryFault .fetch s.pc 0 (fetchFaultAddr s.pc) (sample keys rnd s))) ∨
      (s.pc.toNat + 1 ≤ 0xFFF ∧ ∃ i, decode (fetchWord s) = .ok i ∧
        exec i (advance (sample keys rnd s)) = .fault f) := by
  by_cases hp : s.pc.toNat + 1 ≤ 0xFFF
  · right
    refine ⟨hp, ?_⟩
    cases hd : decode (fetchWord s) with
    | ok i =>
      rw [cycle_of_decode hp hd, finishCycle_eq_fault] at h
      exact ⟨i, rfl, h⟩
    | error e =>
      rw [cycle_of_reject hp hd] at h
      cases h
  · left
    rw [cycle_of_fetchFault (by omega)] at h
    injection h with h
    exact ⟨by omega, h.symm⟩

/-- What a step can be, from any state: a cancellation, a request, a cycle by `step` held, or nothing. -/
theorem step_cases (s : State) :
    (cancelDue s = true ∧ step s = .next (honourCancel s)) ∨
    (cancelDue s = false ∧ ∃ r rest, s.agenda = r :: rest ∧ step s = deliver r { s with agenda := rest }) ∨
    (cancelDue s = false ∧ s.agenda = [] ∧ s.stepHeld = true ∧ s.runState = .running ∧
      step s = cycle (Config.freeKeys s.freeIndex) (Config.freeRnd s.freeIndex)
        { s with agenda := [], freeIndex := s.freeIndex + 1 }) ∨
    (cancelDue s = false ∧ s.agenda = [] ∧ ¬(s.stepHeld = true ∧ s.runState = .running) ∧
      step s = .next s) := by
  cases hc : cancelDue s with
  | true => exact .inl ⟨rfl, step_of_cancelDue hc⟩
  | false =>
    right
    cases ha : s.agenda with
    | cons r rest => exact .inl ⟨rfl, r, rest, rfl, step_of_request ha hc⟩
    | nil =>
      right
      by_cases hr : s.stepHeld = true ∧ s.runState = .running
      · exact .inl ⟨rfl, rfl, hr.1, hr.2, by rw [step_of_held ha hr.1 hr.2 hc, ha]⟩
      · exact .inr ⟨rfl, rfl, hr, step_of_idle_host ha hr hc⟩

/-! ## Several steps -/

@[simp] theorem runSteps_zero (s : State) : runSteps 0 s = .next s := rfl

/-- A run whose first step answers goes on from there. -/
theorem runSteps_succ {s t : State} (h : step s = .next t) (n : Nat) :
    runSteps (n + 1) s = runSteps n t := by
  rw [runSteps, h]

/-- A run in two parts: where the first part answers, the second goes on from it. -/
theorem runSteps_add : ∀ (m n : Nat) {s t : State}, runSteps m s = .next t →
    runSteps (m + n) s = runSteps n t
  | 0, n, s, t, h => by
    rw [runSteps_zero] at h
    injection h with h
    rw [Nat.zero_add, h]
  | m + 1, n, s, t, h => by
    rw [Nat.add_right_comm]
    cases hs : step s with
    | next u =>
      rw [runSteps_succ hs] at h ⊢
      exact runSteps_add m n h
    | fault f =>
      rw [runSteps, hs] at h
      cases h
    | refused r =>
      rw [runSteps, hs] at h
      cases h

/-- It is the host's run of this core. -/
theorem runSteps_eq_run : ∀ (n : Nat) (s : State), Host.Core.run core n s = runSteps n s
  | 0, _ => rfl
  | n + 1, s => by
    have e : core.step s = step s := rfl
    cases hs : step s with
    | next t =>
      simp only [Host.Core.run, e, hs, runSteps]
      exact runSteps_eq_run n t
    | fault f =>
      simp only [Host.Core.run, e, hs, runSteps]
      rfl
    | refused r =>
      simp only [Host.Core.run, e, hs, runSteps]
      rfl

/-! ## Fields after a cycle's own operations -/

@[simp] theorem countDown_toNat (t : Byte) : (countDown t).toNat = t.toNat - 1 := by
  unfold countDown
  split
  · subst_vars; rfl
  · rename_i h
    have hp : 0 < t.toNat := Nat.pos_of_ne_zero fun e => h (BitVec.eq_of_toNat_eq (by simpa using e))
    have hl := t.isLt
    rw [BitVec.toNat_sub]
    simp
    omega

/-- The address the executing instruction came from (30_encoding.md R83). -/
@[simp] theorem insnAddr_advance (s : State) : insnAddr (advance s) = s.pc := by
  simp [insnAddr, advance]

/-! ## Placing a word -/

/-- A 16-bit row of the table is one word, its high byte at the lower address. -/
theorem tableWord_toNat (w : Word) : tableWord 16 w.toNat = w := by
  have := w.isLt
  apply BitVec.eq_of_toNat_eq
  simp [tableWord]
  omega

/-- The place is one a fetch can read. -/
theorem placeAddr_bound (s : State) : placeAddr s + 1 ≤ 0xFFF := by
  unfold placeAddr
  cases h : fetchFaults s.pc
  · simpa using fetchFaults_eq_false.1 h
  · simp [programBase]

@[simp] theorem placeWord_pc_toNat (w : Word) (s : State) : (placeWord w s).pc.toNat = placeAddr s := by
  have := placeAddr_bound s
  simp [placeWord]
  omega

@[simp] theorem bytesOfWord_length (w : Word) : (bytesOfWord w).length = 2 := rfl

/-- The word placed is the word the next fetch reads. -/
theorem fetchWord_placeWord (w : Word) {s : State} (h : s.mem.wf = true) : fetchWord (placeWord w s) = w := by
  have hb := placeAddr_bound s
  have hl : placeAddr s + (bytesOfWord w).length ≤ 0x1000 := by simp; omega
  have h0 := read_writeList (bytesOfWord w) (placeAddr s) 0 h hl (by simp)
  have h1 := read_writeList (bytesOfWord w) (placeAddr s) 1 h hl (by simp)
  rw [Nat.add_zero] at h0
  have e : (placeWord w s).mem = s.mem.writeList (placeAddr s) (bytesOfWord w) := rfl
  rw [fetchWord, placeWord_pc_toNat, e, h0, h1]
  exact wordOfBytes_high_low w

end Sys2Proof.Machine
end

