-- ==== Sys2Proof/Laws/Display.lean ====
section
/-! SUPPORT. What the sprite composer does to each pixel and to the collision mark, one lemma for each of its
layers. -/

namespace Sys2Proof.Machine

/-- Reading a pixel after a flip (40_display.md R115). -/
theorem pixel_flipPixel (fb : Vector PixelRow 32) (row col r c : Nat) (hc : c < 64) :
    pixel (flipPixel fb row col) r c =
      (pixel fb r c ^^ (decide (row < 32) && decide (r = row) && decide (c = col))) := by
  unfold pixel flipPixel
  by_cases hrow : row < 32
  · by_cases hr : r < 32
    · by_cases e : row = r
      · subst e
        have h1 : (1#64 <<< col).getLsbD c = decide (c = col) := by
          rw [BitVec.getLsbD_shiftLeft]
          by_cases h : c = col
          · simp [h]; omega
          · have : ¬(c - col = 0 ∧ col ≤ c) := by omega
            simp [h, hc]; omega
        simp only [hrow, dif_pos, Vector.getElem_set_self, BitVec.getLsbD_xor, h1]
        simp
      · simp [hrow, hr, e, Ne.symm e, Vector.getElem_set_ne]
    · have : r ≠ row := by omega
      simp [hr, this]
  · simp [hrow]

/-- One sprite pixel at a row of the display: the place it names is XORed with the sprite bit when it is on the
display; the mark is set when that turned the pixel off. -/
theorem drawPixel_spec (row col : Nat) (bit : Bool) (cv : Canvas) (hrow : row < 32) :
    (∀ r c, r < 32 → c < 64 → pixel (drawPixel row col bit cv).fb r c =
      (pixel cv.fb r c ^^ (bit && decide (r = row) && decide (c = col)))) ∧
    (drawPixel row col bit cv).collision =
      (cv.collision || (bit && decide (col < 64) && pixel cv.fb row col)) := by
  unfold drawPixel
  by_cases h : displayWidth ≤ col
  · have h' : ¬col < 64 := by simpa [displayWidth] using h
    refine ⟨fun r c _ hc => ?_, ?_⟩
    · have : c ≠ col := by omega
      simp [h, this]
    · simp [h, h']
  · have h' : col < 64 := by simpa [displayWidth] using h
    cases bit
    · simp [h]
    · refine ⟨fun r c _ hc => ?_, ?_⟩
      · simp [h, pixel_flipPixel _ _ _ _ _ hc, hrow]
      · simp [h, h']

/-- The first `k` pixels of a sprite row at a row of the display. -/
theorem drawBits_spec (row X : Nat) (b : Byte) (cv : Canvas) (hrow : row < 32) : ∀ k, k ≤ 8 →
    (∀ r c, r < 32 → c < 64 → pixel (drawBits row X b k cv).fb r c =
      (pixel cv.fb r c ^^ (decide (r = row) && decide (X ≤ c) && decide (c < X + k) &&
        b.getLsbD (7 - (c - X))))) ∧
    ((drawBits row X b k cv).collision = true ↔ cv.collision = true ∨
      ∃ c, c < 64 ∧ X ≤ c ∧ c < X + k ∧ b.getLsbD (7 - (c - X)) = true ∧ pixel cv.fb row c = true)
  | 0, _ => by
    refine ⟨fun r c _ _ => ?_, ?_⟩
    · have : ¬(X ≤ c ∧ c < X + 0) := by omega
      by_cases h : X ≤ c
      · have h2 : ¬c < X + 0 := by omega
        simp only [drawBits, h2, decide_false, Bool.and_false, Bool.false_and, Bool.bne_false]
      · simp [drawBits, h]
    · simp only [drawBits]
      exact ⟨Or.inl, fun h => h.elim id (fun ⟨c, _, h1, h2, _⟩ => absurd h2 (by omega))⟩
  | k + 1, hk => by
    obtain ⟨ih1, ih2⟩ := drawBits_spec row X b cv hrow k (by omega)
    obtain ⟨h1, h2⟩ := drawPixel_spec row (X + k) (b.getLsbD (7 - k)) (drawBits row X b k cv) hrow
    refine ⟨fun r c hr hc => ?_, ?_⟩
    · rw [drawBits, h1 r c hr hc, ih1 r c hr hc]
      by_cases e : c = X + k
      · subst e
        have a1 : ¬X + k < X + k := by omega
        have a2 : X + k < X + (k + 1) := by omega
        have a3 : X + k - X = k := by omega
        by_cases hrr : r = row <;> simp [hrr, a3]
      · have a2 : (c < X + (k + 1)) = (c < X + k) := by
          apply propext
          omega
        simp [e, a2]
    · rw [drawBits, h2]
      by_cases hcol : X + k < 64
      · rw [ih1 row (X + k) hrow hcol]
        have a1 : ¬X + k < X + k := by omega
        simp only [Bool.or_eq_true, ih2, a1, decide_false, Bool.and_false, Bool.false_and, Bool.xor_false,
          Bool.and_eq_true, decide_eq_true_eq, hcol]
        constructor
        · rintro ((h | ⟨c, c1, c2, c3, c4, c5⟩) | ⟨⟨h, _⟩, h'⟩)
          · exact Or.inl h
          · exact Or.inr ⟨c, c1, c2, by omega, c4, c5⟩
          · exact Or.inr ⟨X + k, hcol, by omega, by omega, by simpa using h, h'⟩
        · rintro (h | ⟨c, c1, c2, c3, c4, c5⟩)
          · exact Or.inl (Or.inl h)
          · by_cases e : c = X + k
            · subst e
              exact Or.inr ⟨⟨by simpa using c4, trivial⟩, c5⟩
            · exact Or.inl (Or.inr ⟨c, c1, c2, by omega, c4, c5⟩)
      · simp only [hcol, decide_false, Bool.and_false, Bool.false_and, Bool.or_false, ih2]
        constructor
        · rintro (h | ⟨c, c1, c2, c3, c4, c5⟩)
          · exact Or.inl h
          · exact Or.inr ⟨c, c1, c2, by omega, c4, c5⟩
        · rintro (h | ⟨c, c1, c2, c3, c4, c5⟩)
          · exact Or.inl h
          · exact Or.inr ⟨c, c1, c2, by omega, c4, c5⟩

/-- One sprite row, on the display or clipped (40_display.md R113). -/
theorem drawRow_spec (row X : Nat) (b : Byte) (cv : Canvas) :
    (∀ r c, r < 32 → c < 64 → pixel (drawRow row X b cv).fb r c =
      (pixel cv.fb r c ^^ (decide (r = row) && decide (X ≤ c) && decide (c < X + 8) &&
        b.getLsbD (7 - (c - X))))) ∧
    ((drawRow row X b cv).collision = true ↔ cv.collision = true ∨
      ∃ c, row < 32 ∧ c < 64 ∧ X ≤ c ∧ c < X + 8 ∧ b.getLsbD (7 - (c - X)) = true ∧
        pixel cv.fb row c = true) := by
  unfold drawRow
  by_cases h : displayHeight ≤ row
  · have h' : ¬row < 32 := by simpa [displayHeight] using h
    refine ⟨fun r c hr _ => ?_, ?_⟩
    · have : r ≠ row := by omega
      simp [h, this]
    · simp [h, h']
  · have h' : row < 32 := by simpa [displayHeight] using h
    obtain ⟨h1, h2⟩ := drawBits_spec row X b cv h' 8 (le_refl 8)
    simp only [h, if_false]
    exact ⟨h1, by rw [h2]; simp [h']⟩

/-- The sprite bit over a pixel: `rows` drawn at column X from row `row` down. -/
def spriteBit (rows : List Byte) (X row r c : Nat) : Bool :=
  decide (row ≤ r) && decide (r < row + rows.length) && decide (X ≤ c) && decide (c < X + 8) &&
    (rows.getD (r - row) 0).getLsbD (7 - (c - X))

/-- The first row of a sprite, or a later one. -/
theorem spriteBit_cons (b : Byte) (bs : List Byte) (X row r c : Nat) :
    spriteBit (b :: bs) X row r c =
      ((decide (r = row) && decide (X ≤ c) && decide (c < X + 8) && b.getLsbD (7 - (c - X))) ^^
        spriteBit bs X (row + 1) r c) := by
  unfold spriteBit
  by_cases e : r = row
  · subst e
    have h1 : ¬r + 1 ≤ r := by omega
    simp
  · by_cases h : row ≤ r
    · obtain ⟨k, rfl⟩ : ∃ k, r = row + 1 + k := ⟨r - row - 1, by omega⟩
      have e1 : row + 1 + k - row = k + 1 := by omega
      have e2 : row + 1 + k - (row + 1) = k := by omega
      have e3 : (row + 1 + k < row + (bs.length + 1)) = (k < bs.length) := by
        apply propext
        omega
      have e4 : ¬row + 1 + k = row := by omega
      simp [e1, e3, e4, h]
    · have h2 : ¬row + 1 ≤ r := by omega
      simp [e, h, h2]

/-- The whole composer: every pixel is XORed with the sprite bit over it, and the mark is set exactly when some
pixel that was 1 lies under a 1 bit (40_display.md R111, R115). -/
theorem drawRows_spec (X : Nat) : ∀ (bs : List Byte) (row : Nat) (cv : Canvas),
    (∀ r c, r < 32 → c < 64 → pixel (drawRows X row bs cv).fb r c =
      (pixel cv.fb r c ^^ spriteBit bs X row r c)) ∧
    ((drawRows X row bs cv).collision = true ↔ cv.collision = true ∨
      ∃ r c, r < 32 ∧ c < 64 ∧ spriteBit bs X row r c = true ∧ pixel cv.fb r c = true)
  | [], row, cv => by
    have h0 : ∀ r c, spriteBit [] X row r c = false := by
      intro r c
      unfold spriteBit
      by_cases h : row ≤ r
      · have : ¬r < row + ([] : List Byte).length := by
          simp only [List.length_nil]
          omega
        simp only [this, decide_false, Bool.and_false, Bool.false_and]
      · simp [h]
    simp [drawRows, h0]
  | b :: bs, row, cv => by
    obtain ⟨h1, h2⟩ := drawRow_spec row X b cv
    obtain ⟨ih1, ih2⟩ := drawRows_spec X bs (row + 1) (drawRow row X b cv)
    refine ⟨fun r c hr hc => ?_, ?_⟩
    · rw [drawRows, ih1 r c hr hc, h1 r c hr hc, spriteBit_cons, Bool.xor_assoc]
    · rw [drawRows, ih2, h2, or_assoc]
      refine or_congr_right ?_
      constructor
      · rintro (⟨c, hr, hc, c1, c2, c3, c4⟩ | ⟨r, c, hr, hc, hs, hp⟩)
        · refine ⟨row, c, hr, hc, ?_, c4⟩
          simp [spriteBit, c1, c2, c3]
        · rw [h1 r c hr hc] at hp
          have hlt : row + 1 ≤ r := by
            simp only [spriteBit, Bool.and_eq_true, decide_eq_true_eq] at hs
            exact hs.1.1.1.1
          have hne : r ≠ row := by omega
          refine ⟨r, c, hr, hc, ?_, by simpa [hne] using hp⟩
          rw [spriteBit_cons]
          simp [hne, hs]
      · rintro ⟨r, c, hr, hc, hs, hp⟩
        by_cases e : r = row
        · subst e
          simp only [spriteBit, Bool.and_eq_true, decide_eq_true_eq, Nat.sub_self, List.getD_cons_zero] at hs
          exact Or.inl ⟨c, hr, hc, hs.1.1.2, hs.1.2, hs.2, hp⟩
        · refine Or.inr ⟨r, c, hr, hc, ?_, ?_⟩
          · rw [spriteBit_cons] at hs
            simpa [e] using hs
          · rw [h1 r c hr hc]
            simpa [e] using hp

end Sys2Proof.Machine
end

