-- ==== Sys2Proof/Laws/PerInstr.lean ====
section
/-! SUPPORT. One statement made for each instruction: its encoding matches its own row of the match and mask
table (30_encoding.md R85). The encoder is written from the patterns, the table from the masks. -/

namespace Sys2Proof.Laws

/-! ## The fixed bits of the packings -/

theorem append_and_append {n m : Nat} (a c : BitVec n) (b d : BitVec m) :
    (a ++ b) &&& (c ++ d) = (a &&& c) ++ (b &&& d) := by
  ext i hi
  simp [BitVec.getElem_append]

theorem packNNN_fixed (a : BitVec 4) (nnn : Addr12) : packNNN a nnn &&& 0xF000#16 = a ++ 0#12 := by
  rw [show 0xF000#16 = BitVec.allOnes 4 ++ 0#12 from rfl, packNNN, append_and_append, BitVec.and_allOnes,
    BitVec.and_zero]

theorem packXKK_fixedHigh (a : BitVec 4) (x : Reg) (kk : Byte) : packXKK a x kk &&& 0xF000#16 = a ++ 0#12 :=
  packNNN_fixed a (regField x ++ kk)

theorem packXYN_fixedHigh (a n : BitVec 4) (x y : Reg) : packXYN a x y n &&& 0xF000#16 = a ++ 0#12 :=
  packNNN_fixed a (regField x ++ (regField y ++ n))

theorem packXKK_fixed (a : BitVec 4) (x : Reg) (kk : Byte) :
    packXKK a x kk &&& 0xF0FF#16 = a ++ (0#4 ++ kk) := by
  rw [show 0xF0FF#16 = BitVec.allOnes 4 ++ (0#4 ++ BitVec.allOnes 8) from rfl, packXKK, append_and_append,
    append_and_append, BitVec.and_allOnes, BitVec.and_allOnes, BitVec.and_zero]

theorem packXYN_fixed (a n : BitVec 4) (x y : Reg) :
    packXYN a x y n &&& 0xF00F#16 = a ++ (0#4 ++ (0#4 ++ n)) := by
  rw [show 0xF00F#16 = BitVec.allOnes 4 ++ (0#4 ++ (0#4 ++ BitVec.allOnes 4)) from rfl, packXYN,
    append_and_append, append_and_append, append_and_append, BitVec.and_allOnes, BitVec.and_allOnes,
    BitVec.and_zero, BitVec.and_zero]

/-! ## The family -/

/-- The place of an instruction's row in `opcodeTable` (30_encoding.md R85). -/
def rowIndex : Instr → Nat
  | .cls => 0
  | .ret => 1
  | .jp _ => 2
  | .call _ => 3
  | .seImm _ _ => 4
  | .sneImm _ _ => 5
  | .seReg _ _ => 6
  | .ldImm _ _ => 7
  | .addImm _ _ => 8
  | .ldReg _ _ => 9
  | .orReg _ _ => 10
  | .andReg _ _ => 11
  | .xorReg _ _ => 12
  | .addReg _ _ => 13
  | .subReg _ _ => 14
  | .shrReg _ _ => 15
  | .subnReg _ _ => 16
  | .shlReg _ _ => 17
  | .sneReg _ _ => 18
  | .ldI _ => 19
  | .jpV0 _ => 20
  | .rnd _ _ => 21
  | .drw _ _ _ => 22
  | .skp _ => 23
  | .sknp _ => 24
  | .ldVxDt _ => 25
  | .ldVxK _ => 26
  | .ldDtVx _ => 27
  | .ldStVx _ => 28
  | .addI _ => 29
  | .ldF _ => 30
  | .ldB _ => 31
  | .storeRegs _ => 32
  | .loadRegs _ => 33

/-- The encoding of `i` has the fixed bits of its own row. -/
def OwnRow.Statement (i : Instr) : Prop :=
  ∃ r, opcodeTable[rowIndex i]? = some r ∧ r.matches (encode i) = true

theorem OwnRow.cls : OwnRow.Statement (.cls) :=
  ⟨_, rfl, rfl⟩

theorem OwnRow.ret : OwnRow.Statement (.ret) :=
  ⟨_, rfl, rfl⟩

theorem OwnRow.jp (nnn : Addr12) : OwnRow.Statement (.jp nnn) :=
  ⟨_, rfl, by simp [OpcodeRow.matches, encode, packNNN_fixed]⟩

theorem OwnRow.call (nnn : Addr12) : OwnRow.Statement (.call nnn) :=
  ⟨_, rfl, by simp [OpcodeRow.matches, encode, packNNN_fixed]⟩

theorem OwnRow.seImm (x : Reg) (kk : Byte) : OwnRow.Statement (.seImm x kk) :=
  ⟨_, rfl, by simp [OpcodeRow.matches, encode, packXKK_fixedHigh]⟩

theorem OwnRow.sneImm (x : Reg) (kk : Byte) : OwnRow.Statement (.sneImm x kk) :=
  ⟨_, rfl, by simp [OpcodeRow.matches, encode, packXKK_fixedHigh]⟩

theorem OwnRow.seReg (x y : Reg) : OwnRow.Statement (.seReg x y) :=
  ⟨_, rfl, by simp [OpcodeRow.matches, encode, packXYN_fixed]⟩

theorem OwnRow.ldImm (x : Reg) (kk : Byte) : OwnRow.Statement (.ldImm x kk) :=
  ⟨_, rfl, by simp [OpcodeRow.matches, encode, packXKK_fixedHigh]⟩

theorem OwnRow.addImm (x : Reg) (kk : Byte) : OwnRow.Statement (.addImm x kk) :=
  ⟨_, rfl, by simp [OpcodeRow.matches, encode, packXKK_fixedHigh]⟩

theorem OwnRow.ldReg (x y : Reg) : OwnRow.Statement (.ldReg x y) :=
  ⟨_, rfl, by simp [OpcodeRow.matches, encode, packXYN_fixed]⟩

theorem OwnRow.orReg (x y : Reg) : OwnRow.Statement (.orReg x y) :=
  ⟨_, rfl, by simp [OpcodeRow.matches, encode, packXYN_fixed]⟩

theorem OwnRow.andReg (x y : Reg) : OwnRow.Statement (.andReg x y) :=
  ⟨_, rfl, by simp [OpcodeRow.matches, encode, packXYN_fixed]⟩

theorem OwnRow.xorReg (x y : Reg) : OwnRow.Statement (.xorReg x y) :=
  ⟨_, rfl, by simp [OpcodeRow.matches, encode, packXYN_fixed]⟩

theorem OwnRow.addReg (x y : Reg) : OwnRow.Statement (.addReg x y) :=
  ⟨_, rfl, by simp [OpcodeRow.matches, encode, packXYN_fixed]⟩

theorem OwnRow.subReg (x y : Reg) : OwnRow.Statement (.subReg x y) :=
  ⟨_, rfl, by simp [OpcodeRow.matches, encode, packXYN_fixed]⟩

theorem OwnRow.shrReg (x y : Reg) : OwnRow.Statement (.shrReg x y) :=
  ⟨_, rfl, by simp [OpcodeRow.matches, encode, packXYN_fixed]⟩

theorem OwnRow.subnReg (x y : Reg) : OwnRow.Statement (.subnReg x y) :=
  ⟨_, rfl, by simp [OpcodeRow.matches, encode, packXYN_fixed]⟩

theorem OwnRow.shlReg (x y : Reg) : OwnRow.Statement (.shlReg x y) :=
  ⟨_, rfl, by simp [OpcodeRow.matches, encode, packXYN_fixed]⟩

theorem OwnRow.sneReg (x y : Reg) : OwnRow.Statement (.sneReg x y) :=
  ⟨_, rfl, by simp [OpcodeRow.matches, encode, packXYN_fixed]⟩

theorem OwnRow.ldI (nnn : Addr12) : OwnRow.Statement (.ldI nnn) :=
  ⟨_, rfl, by simp [OpcodeRow.matches, encode, packNNN_fixed]⟩

theorem OwnRow.jpV0 (nnn : Addr12) : OwnRow.Statement (.jpV0 nnn) :=
  ⟨_, rfl, by simp [OpcodeRow.matches, encode, packNNN_fixed]⟩

theorem OwnRow.rnd (x : Reg) (kk : Byte) : OwnRow.Statement (.rnd x kk) :=
  ⟨_, rfl, by simp [OpcodeRow.matches, encode, packXKK_fixedHigh]⟩

theorem OwnRow.drw (x y : Reg) (n : Nat) : OwnRow.Statement (.drw x y n) :=
  ⟨_, rfl, by simp [OpcodeRow.matches, encode, packXYN_fixedHigh]⟩

theorem OwnRow.skp (x : Reg) : OwnRow.Statement (.skp x) :=
  ⟨_, rfl, by simp [OpcodeRow.matches, encode, packXKK_fixed]⟩

theorem OwnRow.sknp (x : Reg) : OwnRow.Statement (.sknp x) :=
  ⟨_, rfl, by simp [OpcodeRow.matches, encode, packXKK_fixed]⟩

theorem OwnRow.ldVxDt (x : Reg) : OwnRow.Statement (.ldVxDt x) :=
  ⟨_, rfl, by simp [OpcodeRow.matches, encode, packXKK_fixed]⟩

theorem OwnRow.ldVxK (x : Reg) : OwnRow.Statement (.ldVxK x) :=
  ⟨_, rfl, by simp [OpcodeRow.matches, encode, packXKK_fixed]⟩

theorem OwnRow.ldDtVx (x : Reg) : OwnRow.Statement (.ldDtVx x) :=
  ⟨_, rfl, by simp [OpcodeRow.matches, encode, packXKK_fixed]⟩

theorem OwnRow.ldStVx (x : Reg) : OwnRow.Statement (.ldStVx x) :=
  ⟨_, rfl, by simp [OpcodeRow.matches, encode, packXKK_fixed]⟩

theorem OwnRow.addI (x : Reg) : OwnRow.Statement (.addI x) :=
  ⟨_, rfl, by simp [OpcodeRow.matches, encode, packXKK_fixed]⟩

theorem OwnRow.ldF (x : Reg) : OwnRow.Statement (.ldF x) :=
  ⟨_, rfl, by simp [OpcodeRow.matches, encode, packXKK_fixed]⟩

theorem OwnRow.ldB (x : Reg) : OwnRow.Statement (.ldB x) :=
  ⟨_, rfl, by simp [OpcodeRow.matches, encode, packXKK_fixed]⟩

theorem OwnRow.storeRegs (x : Reg) : OwnRow.Statement (.storeRegs x) :=
  ⟨_, rfl, by simp [OpcodeRow.matches, encode, packXKK_fixed]⟩

theorem OwnRow.loadRegs (x : Reg) : OwnRow.Statement (.loadRegs x) :=
  ⟨_, rfl, by simp [OpcodeRow.matches, encode, packXKK_fixed]⟩

end Sys2Proof.Laws
end

