-- ==== Sys2Proof/Tests/Slice0.lean ====
section
/-! SUPPORT. The model's own tests. Expected values come from 30_encoding.md R85 (words), 95_test_vectors.md
(vector ids in the names) and the rules named. Then one witness for the hypotheses of each obligation. -/

namespace Sys2Proof.Tests

open Sys2Proof Sys2Proof.Machine

/-! ## Well-formedness -/

/-- A sprite height above 15 has no encoding: refused. -/
theorem test_wellFormed_height : (Instr.drw 1 2 16).wellFormed = false ∧ (Instr.drw 1 2 15).wellFormed = true := by
  decide

/-! ## Decoding, words written from the patterns of R85 -/

theorem test_decode_display :
    decode 0b0000000011100000 = .ok .cls ∧ decode 0b1101000100100101 = .ok (.drw 1 2 5) := by decide

theorem test_decode_control :
    decode 0b0000000011101110 = .ok .ret ∧ decode 0b0001101010111100 = .ok (.jp 0xABC) ∧
    decode 0x2345 = .ok (.call 0x345) ∧ decode 0x3142 = .ok (.seImm 1 0x42) ∧
    decode 0x4F42 = .ok (.sneImm 15 0x42) ∧ decode 0x5120 = .ok (.seReg 1 2) ∧
    decode 0x9120 = .ok (.sneReg 1 2) ∧ decode 0xB300 = .ok (.jpV0 0x300) := by decide

theorem test_decode_alu :
    decode 0b0110101011111111 = .ok (.ldImm 10 0xFF) ∧ decode 0x7101 = .ok (.addImm 1 0x01) ∧
    decode 0x8120 = .ok (.ldReg 1 2) ∧ decode 0x8121 = .ok (.orReg 1 2) ∧
    decode 0x8122 = .ok (.andReg 1 2) ∧ decode 0x8123 = .ok (.xorReg 1 2) ∧
    decode 0b1000000100100100 = .ok (.addReg 1 2) ∧ decode 0x8125 = .ok (.subReg 1 2) ∧
    decode 0x8126 = .ok (.shrReg 1 2) ∧ decode 0x8127 = .ok (.subnReg 1 2) ∧
    decode 0b1000000100101110 = .ok (.shlReg 1 2) ∧ decode 0xC10F = .ok (.rnd 1 0x0F) := by decide

theorem test_decode_index :
    decode 0b1010000100100011 = .ok (.ldI 0x123) ∧ decode 0xF41E = .ok (.addI 4) ∧
    decode 0xF229 = .ok (.ldF 2) ∧ decode 0xF133 = .ok (.ldB 1) ∧
    decode 0b1111000101010101 = .ok (.storeRegs 1) ∧ decode 0xF265 = .ok (.loadRegs 2) := by decide

theorem test_decode_timer_input :
    decode 0b1110000110011110 = .ok (.skp 1) ∧ decode 0xE1A1 = .ok (.sknp 1) ∧
    decode 0b1111001100000111 = .ok (.ldVxDt 3) ∧ decode 0xF50A = .ok (.ldVxK 5) ∧
    decode 0xF315 = .ok (.ldDtVx 3) ∧ decode 0xF318 = .ok (.ldStVx 3) := by decide

/-- FE6 to FE10: words of no row. -/
theorem test_decode_unknown :
    decode 0x5121 = .error (.unknownOpcode 0x5121) ∧ decode 0x8008 = .error (.unknownOpcode 0x8008) ∧
    decode 0xE000 = .error (.unknownOpcode 0xE000) ∧ decode 0xF0FF = .error (.unknownOpcode 0xF0FF) ∧
    decode 0x0123 = .error (.unknownOpcode 0x0123) := by decide

/-- R91: decoding reads two bytes, the first the more significant, and leaves the rest. -/
theorem test_decode_bytes :
    decodeBytes [0x6A, 0x05, 0x99] = .ok (.ldImm 10 0x05, [0x99]) ∧ decodeBytes [0x6A] = .error .tooShort := by
  decide

theorem test_decode_table_word :
    decodeTableWord 16 0x812E = some (.shlReg 1 2) ∧ decodeTableWord 16 0x0000 = none := by decide

/-! ## One step on a small state -/

/-- A RUNNING core, else as after reset. -/
def base : State := { State.reset with runState := .running }

/-- `s` with the word at `a`, pc = `a`, and one `step` request with the given inputs. -/
def prog (a insn : Word) (s : State) (keys : KeySet := 0) (rnd : Byte := 0) : State :=
  { s with pc := a, mem := s.mem.writeList a.toNat (bytesOfWord insn), agenda := [.step keys rnd] }

/-- The next state, if there is one, seen through `f`. -/
def onNext {α : Type} (f : State → α) : Host.Outcome State Fault Refusal → Option α
  | .next t => some (f t)
  | .fault _ => none
  | .refused _ => none

/-- The halted state of a fault, if there is one, seen through `f`. -/
def onFault {α : Type} (f : State → α) : Host.Outcome State Fault Refusal → Option α
  | .next _ => none
  | .fault r => some (f r.halted)
  | .refused _ => none

/-- One pixel lit. -/
def lit (row col : Nat) (s : State) : State := { s with fb := flipPixel s.fb row col }

/-! ### Fetch and decode -/

theorem test_FE1_last_fetch : onNext (fun t => (t.reg 10, t.pc)) (step (prog 0xFFE 0x6A12 base)) =
    some (0x12, 0x1000) := by decide

theorem test_FE2_fetch_fault : onFault (fun t => (t.pc, t.runState, t.fault)) (step (prog 0xFFF 0x6A12 base)) =
    some (0xFFF, .halted, ⟨.memoryFault, .fetch, 0xFFF, 0, 0x1000⟩) := by decide

theorem test_FE4_odd_pc : onNext (fun t => (t.reg 10, t.pc)) (step (prog 0x201 0x6A05 base)) =
    some (0x05, 0x203) := by decide

theorem test_FE5_unknown : onNext (fun t => (t.pc, t.events)) (step (prog 0x200 0x0000 base)) =
    some (0x202, [⟨.unknownOpcode, 0x200, 0x0000⟩]) := by decide

/-- R80: no cycle without a request, one with `step` held. -/
theorem test_R80_request :
    onNext (fun t => (t.pc, t.reg 10)) (step { prog 0x200 0x6A12 base with agenda := [] }) = some (0x200, 0) ∧
    onNext (fun t => (t.pc, t.reg 10)) (step { prog 0x200 0x6A12 base with agenda := [], stepHeld := true }) =
      some (0x202, 0x12) := by decide

theorem test_withFetchWord : onNext (fun t => (t.reg 10, t.pc)) (step (State.reset.withFetchWord 16 0x6A12)) =
    some (0x12, 0x202) := by decide

/-! ### Display -/

theorem test_DS1_cls : onNext (fun t => (t.fb, t.pc)) (step (prog 0x200 0x00E0 (lit 0 0 (lit 31 63 base)))) =
    some (Vector.replicate 32 0, 0x202) := by decide

theorem test_DS2_clip :
    onNext (fun t => (t.fb[5], t.fb[6], t.reg VF)) (step (prog 0x200 0xD121
      (setReg 15 1 (setReg 1 60 (setReg 2 5 (setMem [(0x300, 0xFF)] (setI 0x300 base))))))) =
    some (0xF000000000000000, 0, 0) := by decide

theorem test_DS8_x_is_VF :
    onNext (fun t => (t.fb[0], t.reg VF)) (step (prog 0x200 0xDF21
      (setReg 15 1 (setMem [(0x300, 0x80)] (setI 0x300 base))))) = some (0x2, 0) := by decide

/-! ### Control flow -/

theorem test_CF1_jp : onNext (·.pc) (step (prog 0x456 0x1ABC base)) = some 0xABC := by decide

theorem test_CF2_call : onNext (fun t => (t.stack[0]?, t.sp, t.pc)) (step (prog 0x200 0x2300 base)) =
    some (some 0x202, 1, 0x300) := by decide

theorem test_CF5_call_full :
    onFault (fun t => (t.pc, t.sp, t.fault)) (step (prog 0x200 0x2400 { base with sp := 16 })) =
    some (0x202, 16, ⟨.stackOverflow, .execute, 0x200, 0x2400, 0⟩) := by decide

theorem test_CF3_ret :
    onNext (fun t => (t.pc, t.sp))
      (step (prog 0x300 0x00EE { base with stack := base.stack.set 0 0x202, sp := 1 })) =
    some (0x202, 0) := by decide

theorem test_CF4_ret_empty : onFault (fun t => (t.pc, t.sp, t.fault)) (step (prog 0x200 0x00EE base)) =
    some (0x202, 0, ⟨.stackUnderflow, .execute, 0x200, 0x00EE, 0⟩) := by decide

theorem test_CF8_se_taken : onNext (·.pc) (step (prog 0x200 0x3342 (setReg 3 0x42 base))) = some 0x204 := by
  decide

theorem test_CF9_se_not_taken : onNext (·.pc) (step (prog 0x200 0x3342 (setReg 3 0x41 base))) = some 0x202 := by
  decide

theorem test_CF10_sne_taken : onNext (·.pc) (step (prog 0x200 0x4342 (setReg 3 0x41 base))) = some 0x204 := by
  decide

theorem test_CF12_se_reg :
    onNext (·.pc) (step (prog 0x200 0x5120 (setReg 1 7 (setReg 2 7 base)))) = some 0x204 := by decide

theorem test_CF13_sne_reg :
    onNext (·.pc) (step (prog 0x200 0x9120 (setReg 1 7 (setReg 2 8 base)))) = some 0x204 := by decide

theorem test_CF14_sne_reg :
    onNext (·.pc) (step (prog 0x200 0x9120 (setReg 1 7 (setReg 2 7 base)))) = some 0x202 := by decide

theorem test_CF16_jpV0_not_masked : onNext (·.pc) (step (prog 0x200 0xBFFF (setReg 0 0xFF base))) =
    some 0x10FE := by decide

/-! ### Arithmetic, VF = 5 before -/

/-- A core with VF = 5, V1 and V2. -/
def alu (v1 v2 : Byte) : State := setReg 15 5 (setReg 1 v1 (setReg 2 v2 base))

/-- V1 and VF after the step. -/
def v1vf (insn : Word) (s : State) (rnd : Byte := 0) : Option (Byte × Byte) :=
  onNext (fun t => (t.reg 1, t.reg VF)) (step (prog 0x200 insn s 0 rnd))

theorem test_AL1_ld_imm : onNext (·.reg 10) (step (prog 0x200 0x6AFF base)) = some 0xFF := by decide

theorem test_AL2_add_imm : v1vf 0x7101 (alu 0xFF 0) = some (0x00, 0x05) := by decide

theorem test_AL3_ld_reg : v1vf 0x8120 (alu 0x11 0x22) = some (0x22, 0x05) := by decide

theorem test_AL4_or : v1vf 0x8121 (alu 0xF0 0x0F) = some (0xFF, 0x05) := by decide

theorem test_AL5_and : v1vf 0x8122 (alu 0xF0 0x3C) = some (0x30, 0x05) := by decide

theorem test_AL6_xor : v1vf 0x8123 (alu 0xFF 0x0F) = some (0xF0, 0x05) := by decide

theorem test_SX4_add : v1vf 0x8124 (alu 0xFA 0x0A) = some (0x04, 1) := by decide

theorem test_AL8_add_dest_VF :
    onNext (·.reg VF) (step (prog 0x200 0x8F14 (setReg 15 0xFF (setReg 1 1 base)))) = some 1 := by decide

theorem test_SX5_sub : v1vf 0x8125 (alu 5 10) = some (0xFB, 0) := by decide

theorem test_AL9_sub_equal : v1vf 0x8125 (alu 7 7) = some (0, 0) := by decide

theorem test_AL13_shr_source_Vy : v1vf 0x8126 (alu 0xAA 0x03) = some (0x01, 1) := by decide

theorem test_AL15_shr_dest_VF : onNext (·.reg VF) (step (prog 0x200 0x8F16 (alu 0x05 0))) = some 1 := by decide

theorem test_AL11_subn : v1vf 0x8127 (alu 0x05 0x0A) = some (0x05, 1) := by decide

theorem test_AL12_subn_equal : v1vf 0x8127 (alu 0x0A 0x0A) = some (0, 0) := by decide

theorem test_AL16_shl : v1vf 0x812E (alu 0 0x81) = some (0x02, 1) := by decide

theorem test_AL18_shl_VF : onNext (·.reg VF) (step (prog 0x200 0x8FFE (setReg 15 0x81 base))) = some 1 := by
  decide

theorem test_AL19_rnd : v1vf 0xC10F (alu 0 0) 0xAB = some (0x0B, 5) := by decide

/-! ### Index and memory -/

theorem test_IM1_ld_I : onNext (·.I) (step (prog 0x200 0xA123 base)) = some 0x123 := by decide

theorem test_IM2_add_I : onNext (·.I) (step (prog 0x200 0xF41E (setReg 4 0xFE (setI 0xF01 base)))) =
    some 0xFFF := by decide

theorem test_IM3_add_I_fault :
    onFault (fun t => (t.I, t.pc, t.fault)) (step (prog 0x200 0xF41E (setReg 4 0xFF (setI 0xF01 base)))) =
    some (0xF01, 0x202, ⟨.memoryFault, .execute, 0x200, 0xF41E, 0x1000⟩) := by decide

theorem test_IM5_ld_F : onNext (·.I) (step (prog 0x200 0xF229 (setReg 2 0xFF base))) = some 0x54B := by decide

theorem test_IM6_bcd :
    onNext (fun t => (t.mem.readList 0x300 3, t.I)) (step (prog 0x200 0xF133 (setReg 1 123 (setI 0x300 base)))) =
    some ([1, 2, 3], 0x300) := by decide

theorem test_IM8_bcd_fault :
    onFault (fun t => (t.mem.readList 0xFFE 2, t.fault))
      (step (prog 0x200 0xF133 (setReg 1 0x64 (setI 0xFFE base)))) =
    some ([0, 0], ⟨.memoryFault, .execute, 0x200, 0xF133, 0x1000⟩) := by decide

theorem test_IM10_store :
    onNext (fun t => (t.mem.read 0xFFE, t.I)) (step (prog 0x200 0xF055 (setReg 0 9 (setI 0xFFE base)))) =
    some (9, 0xFFF) := by decide

theorem test_IM11_store_fault :
    onFault (fun t => (t.mem.read 0xFFE, t.I, t.fault))
      (step (prog 0x200 0xF155 (setReg 0 9 (setReg 1 8 (setI 0xFFE base))))) =
    some (0, 0xFFE, ⟨.memoryFault, .execute, 0x200, 0xF155, 0x1000⟩) := by decide

theorem test_IM12_load :
    onNext (fun t => (t.reg 0, t.reg 1, t.reg 2, t.reg 3, t.I))
      (step (prog 0x200 0xF265
        (setReg 3 6 (setMem [(0x300, 7), (0x301, 8), (0x302, 9), (0x303, 5)] (setI 0x300 base))))) =
    some (7, 8, 9, 6, 0x303) := by decide

/-! ### Timers and input -/

theorem test_KI1_ld_DT : onNext (·.reg 3) (step (prog 0x200 0xF307 (setDt 0x20 base))) = some 0x20 := by decide

theorem test_KI2_set_DT : onNext (·.dt) (step (prog 0x200 0xF315 (setReg 3 5 base))) = some 5 := by decide

theorem test_KI3_set_ST :
    onNext (fun t => (t.st, soundActive t)) (step (prog 0x200 0xF318 (setReg 3 2 base))) = some (2, true) := by
  decide

theorem test_KI4_skp :
    onNext (fun t => (t.pc, t.keyPrev)) (step (prog 0x200 0xE19E (setReg 1 4 base) 0x0010)) =
    some (0x204, 0x0010) := by decide

theorem test_KI8_skp_fault :
    onFault (fun t => (t.pc, t.keyPrev, t.fault)) (step (prog 0x200 0xE19E (setReg 1 0x10 base) 0xFFFF)) =
    some (0x202, 0, ⟨.keyIndexFault, .execute, 0x200, 0xE19E, 0x10⟩) := by decide

theorem test_KI6_sknp : onNext (·.pc) (step (prog 0x200 0xE1A1 (setReg 1 4 base))) = some 0x204 := by decide

theorem test_KI7_sknp : onNext (·.pc) (step (prog 0x200 0xE1A1 (setReg 1 4 base) 0x0010)) = some 0x202 := by
  decide

theorem test_KI11_key_held : onNext (·.pc) (step (prog 0x200 0xF50A { base with keyPrev := 0x0080 } 0x0080)) =
    some 0x200 := by decide

theorem test_KI12_lowest_new_key :
    onNext (fun t => (t.reg 5, t.pc, t.keyPrev))
      (step (prog 0x200 0xF50A { base with keyPrev := 0x0080 } 0x0288)) = some (3, 0x202, 0x0288) := by decide

/-! ### Ticks, cancellation, reset, loading -/

theorem test_TK2_tick :
    onNext (fun t => (t.dt, t.st)) (step { base with dt := 0xFF, st := 0x10, agenda := [.tick] }) =
    some (0xFE, 0x0F) := by decide

theorem test_TK5_tick_idle : onNext (·.dt) (step { State.reset with dt := 3, agenda := [.tick] }) = some 3 := by
  decide

/-- TK7: the instruction of one clock reads DT before the tick. -/
theorem test_TK7_order :
    onNext (fun t => (t.reg 3, t.dt))
      (runSteps 2 { prog 0x200 0xF307 (setDt 1 base) with agenda := clockRequests false true true 0 0 }) =
    some (1, 0) := by decide

/-- XR2: cancel, step and tick in the same clock. -/
theorem test_XR2_cancel_wins :
    onNext (fun t => (t.runState, t.reg 10, t.dt))
      (runSteps 4 { prog 0x200 0x6A12 (setDt 9 base) with agenda := clockRequests true true true 0 0 }) =
    some (.stopped, 0, 9) := by decide

theorem test_XR4_reset :
    onNext (fun t => (t.pc, t.reg 1, t.runState, t.fault))
      (step { alu 1 2 with
        pc := 0x300, runState := .halted,
        fault := ⟨.memoryFault, .fetch, 1, 2, 3⟩, agenda := [.rst] }) =
    some (0x200, 0, .idle, FaultRecord.zero) := by decide

theorem test_XR6_load :
    onNext (·.mem) (step { State.reset with agenda := [.load 0x200 0x6A] }) = some [(0x200, 0x6A)] := by decide

theorem test_XR7_start : onNext (fun t => (t.runState, t.pc)) (step { State.reset with agenda := [.start] }) =
    some (.running, 0x200) := by decide

/-- R92. -/
theorem test_asm : asmOf (.storeRegs 1) = ⟨.LD, [.indirectI, .reg 1]⟩ ∧ disassemble 0 = ⟨.word, [.raw 0]⟩ := by
  decide

/-! ## Witnesses: the hypotheses of the obligations can be met, one clause at a time -/

theorem witness_DecodeOfEncode : ∃ i : Instr, i.WellFormed := ⟨.drw 15 15 15, by decide⟩

theorem witness_EncodeOfDecode : ∃ w i, decode w = .ok i := ⟨0xFF65, .loadRegs 15, by decide⟩

theorem witness_DecoderAccepts :
    (∃ w : Word, ∃ r ∈ opcodeTable, r.matches w = true) ∧
    ∃ w : Word, ∀ r ∈ opcodeTable, r.matches w = false := ⟨⟨0xFF65, by decide⟩, 0xFFFF, by decide⟩

theorem witness_RowsAreDisjoint : ∃ (w : Word) (j k : Fin opcodeTable.length),
    (opcodeTable[j]).matches w = true ∧ (opcodeTable[k]).matches w = true :=
  ⟨0xDFFF, ⟨22, by decide⟩, ⟨22, by decide⟩, by decide, by decide⟩

theorem witness_AssemblerLine : ∃ i j : Instr, asmOf i = asmOf j := ⟨.jpV0 1, .jpV0 1, rfl⟩

theorem witness_StepRuns :
    (∃ (s : State) (rest : List Request) (i : Instr), s.runState = .running ∧ s.NextRequest (.step 0 0) rest ∧
      s.pc.toNat + 1 ≤ 0xFFF ∧
      decode (wordOfBytes (s.mem.read s.pc.toNat) (s.mem.read (s.pc.toNat + 1))) = .ok i) ∧
    (∃ (s : State) (i : Instr), s.runState = .running ∧ s.cancelLatch = false ∧ s.agenda = [] ∧
      s.stepHeld = true ∧ s.pc.toNat + 1 ≤ 0xFFF ∧
      decode (wordOfBytes (s.mem.read s.pc.toNat) (s.mem.read (s.pc.toNat + 1))) = .ok i) :=
  ⟨⟨prog 0xFFE 0x6A12 base, [], .ldImm 10 0x12, by decide⟩,
   { prog 0xFFE 0x6A12 base with agenda := [], stepHeld := true }, .ldImm 10 0x12, by decide⟩

theorem witness_StepReports : ∃ (s : State) (rest : List Request) (w : Word),
    s.runState = .running ∧ s.NextRequest (.step 0 0) rest ∧ s.pc.toNat + 1 ≤ 0xFFF ∧
    w = wordOfBytes (s.mem.read s.pc.toNat) (s.mem.read (s.pc.toNat + 1)) ∧
    ∀ r ∈ opcodeTable, r.matches w = false := ⟨prog 0xFFE 0x5121 base, [], 0x5121, by decide⟩

theorem witness_FetchFault :
    (∃ (s : State) (rest : List Request), s.runState = .running ∧ s.NextRequest (.step 0 0) rest ∧
      s.pc.toNat + 1 > 0xFFF ∧ ¬s.pc.toNat > 0xFFF) ∧
    (∃ (s : State) (rest : List Request), s.runState = .running ∧ s.NextRequest (.step 0 0) rest ∧
      s.pc.toNat + 1 > 0xFFF ∧ s.pc.toNat > 0xFFF) :=
  ⟨⟨prog 0xFFF 0 base, [], by decide⟩, prog 0x1000 0 base, [], by decide⟩

theorem witness_PlacedWord : ∃ s : State, s.mem.wf = true ∧ s.pc.toNat + 1 ≤ 0xFFF :=
  ⟨{ base with pc := 0xFFE }, by decide⟩

theorem witness_destination_not_VF : ∃ x : Reg, x ≠ VF := ⟨14, by decide⟩

theorem witness_AddToIndex :
    (∃ (s : State) (x : Reg), s.I.toNat + (s.reg x).toNat ≤ 0xFFF) ∧
    (∃ (s : State) (x : Reg), s.I.toNat ≤ 0x1000 ∧ s.I.toNat + (s.reg x).toNat > 0xFFF) :=
  ⟨⟨setReg 4 0xFE (setI 0xF01 base), 4, by decide⟩, setReg 4 0xFF (setI 0xF01 base), 4, by decide⟩

theorem witness_Bcd : (∃ s : State, s.mem.wf = true ∧ s.I.toNat + 2 ≤ 0xFFF) ∧
    ∃ s : State, s.mem.wf = true ∧ s.I.toNat + 2 > 0xFFF :=
  ⟨⟨setI 0xFFD base, by decide⟩, setI 0xFFE base, by decide⟩

/-- Both settings of the check, at the last block they allow. -/
theorem witness_block :
    (∃ (s : State) (x : Reg), s.cfg.postInc = .strict ∧ s.mem.wf = true ∧ blockInRange s x) ∧
    ∃ (s : State) (x : Reg), s.cfg.postInc = .lenient ∧ s.mem.wf = true ∧ blockInRange s x :=
  ⟨⟨setI 0xFEF base, 15, by decide⟩,
   setI 0xFF0 { base with cfg := { Config.default with postInc := .lenient } }, 15, by decide⟩

/-- Both settings, at the first block they refuse. -/
theorem witness_block_fault :
    (∃ (s : State) (x : Reg), s.cfg.postInc = .strict ∧ ¬blockInRange s x) ∧
    ∃ (s : State) (x : Reg), s.cfg.postInc = .lenient ∧ ¬blockInRange s x :=
  ⟨⟨setI 0xFF0 base, 15, by decide⟩,
   setI 0xFF1 { base with cfg := { Config.default with postInc := .lenient } }, 15, by decide⟩

theorem witness_FetchSees : ∃ (s : State) (x j k : Reg), s.mem.wf = true ∧ blockInRange s x ∧ j ≤ x ∧ k ≤ x ∧
    s.pc.toNat = s.I.toNat + j.val ∧ k.val = j.val + 1 :=
  ⟨{ setI 0x202 base with pc := 0x202 }, 1, 0, 1, by decide⟩

theorem witness_Draw : (∃ (_ : State) (n : Nat), n = 0) ∧
    ∃ (s : State) (n : Nat), 0 < n ∧ s.I.toNat + n - 1 ≤ 0xFFF :=
  ⟨⟨base, 0, rfl⟩, setI 0xFF1 base, 15, by decide⟩

theorem witness_DrawFault : ∃ (s : State) (n : Nat), s.I.toNat ≤ 0x1000 ∧ 0 < n ∧ s.I.toNat + n - 1 > 0xFFF :=
  ⟨setI 0xFF2 base, 15, by decide⟩

theorem witness_DrawingTwice : ∃ (s : State) (x y : Reg) (n : Nat), x ≠ VF ∧ y ≠ VF ∧
    (n = 0 ∨ s.I.toNat + n - 1 ≤ 0xFFF) ∧ ∀ row col, row < 32 → col < 64 → pixel s.fb row col = false :=
  ⟨base, 1, 2, 5, by decide, by decide, by decide, fun row col _ _ => by
    simp [base, State.reset, State.resetWith, pixel]⟩

theorem witness_Call :
    (∃ s : State, s.stack.length = s.cfg.stackCapacity ∧ s.sp < s.cfg.stackCapacity) ∧
    ∃ s : State, s.stack.length = s.cfg.stackCapacity ∧ s.sp = s.cfg.stackCapacity :=
  ⟨⟨{ base with sp := 15 }, by decide⟩, { base with sp := 16 }, by decide⟩

theorem witness_Return :
    (∃ s : State, s.stack.length = s.cfg.stackCapacity ∧ s.sp ≤ s.cfg.stackCapacity ∧ 0 < s.sp) ∧
    ∃ s : State, s.stack.length = s.cfg.stackCapacity ∧ s.sp ≤ s.cfg.stackCapacity ∧ s.sp = 0 :=
  ⟨⟨{ base with sp := 16 }, by decide⟩, base, by decide⟩

/-- The state right after the call is one that returns. -/
theorem witness_ReturnAfterCall : ∃ s t t' : State, s.stack.length = s.cfg.stackCapacity ∧
    s.sp < s.cfg.stackCapacity ∧ exec (.call 0x300) s = .next t ∧ t'.sp = t.sp ∧
    t'.stack[s.sp]? = t.stack[s.sp]? :=
  ⟨{ base with sp := 15 }, _, _, by decide, by decide, rfl, rfl, rfl⟩

theorem witness_Skips :
    (∃ (s : State) (x : Reg) (kk : Byte), s.reg x = kk) ∧ (∃ (s : State) (x : Reg) (kk : Byte), s.reg x ≠ kk) ∧
    (∃ (s : State) (x y : Reg), s.reg x = s.reg y) ∧ ∃ (s : State) (x y : Reg), s.reg x ≠ s.reg y :=
  ⟨⟨alu 7 8, 1, 7, by decide⟩, ⟨alu 7 8, 1, 8, by decide⟩, ⟨alu 7 7, 1, 2, by decide⟩, alu 7 8, 1, 2, by decide⟩

theorem witness_KeySkips :
    (∃ (s : State) (x : Reg), (s.reg x).toNat ≤ 15 ∧ s.keys.getLsbD (s.reg x).toNat = true) ∧
    ∃ (s : State) (x : Reg), (s.reg x).toNat ≤ 15 ∧ s.keys.getLsbD (s.reg x).toNat = false :=
  ⟨⟨{ alu 15 0 with keys := 0x8000 }, 1, by decide⟩, { alu 15 0 with keys := 0x7FFF }, 1, by decide⟩

theorem witness_KeyIndex : ∃ (s : State) (x : Reg), (s.reg x).toNat > 15 := ⟨alu 16 0, 1, by decide⟩

theorem witness_KeyWait :
    (∃ s : State, s.cfg.keyWait = .suspend ∧
      ∃ k, k < 16 ∧ s.keys.getLsbD k = true ∧ s.keyPrev.getLsbD k = false) ∧
    (∃ s : State, s.cfg.keyWait = .suspend ∧
      ∀ k, k < 16 → s.keys.getLsbD k = true → s.keyPrev.getLsbD k = true) ∧
    ∃ s : State, s.cfg.keyWait = .nop :=
  ⟨⟨{ base with keys := 0x8000 }, rfl, 15, by decide⟩,
   ⟨{ base with keys := 0x8000, keyPrev := 0x8000 }, rfl, fun _ _ h => h⟩,
   { base with cfg := { Config.default with keyWait := .nop } }, rfl⟩

theorem witness_DisplayAndMemoryWriters :
    (∃ s t, exec .cls s = .next t ∧ t.fb ≠ s.fb) ∧
    ∃ s t, exec (.ldB 1) s = .next t ∧ ∃ a, t.mem.read a ≠ s.mem.read a :=
  ⟨⟨lit 0 0 base, _, rfl, by decide⟩, setI 0x300 (alu 123 0), _, rfl, 0x300, by decide⟩

theorem witness_StackIndexTimerWriters :
    (∃ s t, exec (.call 0x300) s = .next t ∧ t.sp ≠ s.sp) ∧ (∃ s t, exec (.ldI 1) s = .next t ∧ t.I ≠ s.I) ∧
    (∃ s t, exec (.ldDtVx 1) s = .next t ∧ t.dt ≠ s.dt) ∧ ∃ s t, exec (.ldStVx 1) s = .next t ∧ t.st ≠ s.st :=
  ⟨⟨base, _, rfl, by decide⟩, ⟨base, _, rfl, by decide⟩, ⟨alu 1 0, _, rfl, by decide⟩, alu 1 0, _, rfl, by decide⟩

theorem witness_RegisterWriters :
    (∃ s t, exec (.ldImm 1 5) s = .next t ∧ ∃ r, t.reg r ≠ s.reg r) ∧
    ∃ s t, exec (.addReg 1 2) s = .next t ∧ writesFlag (.addReg 1 2) = true :=
  ⟨⟨base, _, rfl, 1, by decide⟩, alu 1 2, _, rfl, rfl⟩

theorem witness_ExecNext : ∃ i s t, exec i s = .next t := ⟨.drw 1 2 5, base, _, rfl⟩

theorem witness_ExecuteFault : ∃ i s f, exec i s = .fault f := ⟨.ret, base, _, rfl⟩

theorem witness_InputsReach : ∃ i s t, exec i s = .next t ∧ readsKeys i = false ∧ (∀ x, i ≠ .ldVxK x) ∧
    readsRnd i = false := ⟨.cls, base, _, rfl, rfl, nofun, rfl⟩

theorem witness_Tick :
    (∃ (s : State) (rest : List Request), s.NextRequest .tick rest ∧ s.runState = .running) ∧
    ∃ (s : State) (rest : List Request), s.NextRequest .tick rest ∧ s.runState ≠ .running :=
  ⟨⟨{ base with agenda := [.tick] }, [], by decide⟩, { State.reset with agenda := [.tick] }, [], by decide⟩

theorem witness_TimersDecay : ∃ (n : Nat) (s : State) (rest : List Request), s.runState = .running ∧
    s.cancelLatch = false ∧ s.agenda = List.replicate n .tick ++ rest :=
  ⟨2, { base with agenda := [.tick, .tick, .cancel] }, [.cancel], by decide⟩

theorem witness_Cancel : ∃ (s : State) (rest : List Request), s.runState = .running ∧ s.NextRequest .cancel rest ∧
    rest.head? ≠ some .rst := ⟨{ base with agenda := [.cancel, .step 0 0] }, [.step 0 0], by decide⟩

theorem witness_CancelWins : ∃ s : State, s.runState = .running ∧ s.cancelLatch = false ∧
    s.agenda = clockRequests true true true 0 0 :=
  ⟨{ base with agenda := clockRequests true true true 0 0 }, by decide⟩

theorem witness_Ended :
    (∃ s : State, s.runState = .halted ∧ s.Final ∧ Request.rst ∉ s.agenda) ∧
    ∃ s : State, s.runState = .stopped ∧ s.Final ∧ Request.rst ∉ s.agenda :=
  ⟨⟨{ base with runState := .halted, agenda := [.start, .step 0 0] }, by decide⟩,
   { base with runState := .stopped, agenda := [.cancel, .tick] }, by decide⟩

theorem witness_StartAndStep :
    (∃ (s : State) (rest : List Request), s.NextRequest (.step 0 0) rest ∧ s.runState ≠ .running) ∧
    (∃ (s : State) (rest : List Request), s.NextRequest .start rest ∧ s.runState = .idle) ∧
    ∃ (s : State) (rest : List Request), s.NextRequest .start rest ∧ s.runState ≠ .idle :=
  ⟨⟨{ State.reset with agenda := [.step 0 0] }, [], by decide⟩,
   ⟨{ State.reset with agenda := [.start] }, [], by decide⟩, { base with agenda := [.start] }, [], by decide⟩

theorem witness_Load :
    (∃ (s : State) (rest : List Request), s.mem.wf = true ∧ s.NextRequest (.load 0xFFF 1) rest ∧
      s.runState = .idle) ∧
    ∃ (s : State) (rest : List Request), s.mem.wf = true ∧ s.NextRequest (.load 0xFFF 1) rest ∧
      s.runState ≠ .idle :=
  ⟨⟨{ State.reset with agenda := [.load 0xFFF 1] }, [], by decide⟩,
   { base with agenda := [.load 0xFFF 1] }, [], by decide⟩

theorem witness_NoRequest :
    (∃ s t : State, ¬s.CycleRequested ∧ step s = .next t ∧ ∀ rest, s.agenda ≠ .rst :: rest) ∧
    ∃ s : State, ¬s.CycleRequested ∧ s.runState = .running ∧ s.agenda = [] ∧ cancelDue s = false :=
  ⟨⟨{ base with agenda := [.tick] }, _, by simp, rfl, by simp⟩, base, by simp [base, State.reset, State.resetWith],
   rfl, rfl, rfl⟩

theorem witness_Reset : ∃ (s : State) (rest : List Request), s.agenda = .rst :: rest :=
  ⟨{ base with agenda := [.rst] }, [], rfl⟩

theorem witness_Spinning : ∃ (s : State) (rest : List Request), s.Spinning ∧ s.NextRequest (.step 0 0) rest :=
  ⟨prog 0xFFE 0x1FFE base, [], by decide⟩

theorem base_stack (w : Word) (h : w ∈ base.stack) : w.toNat ≤ 0x1000 := by
  rw [List.eq_of_mem_replicate (h : w ∈ List.replicate 16 0)]
  decide

theorem base_reports (e : EventRecord) (h : e ∈ base.events) : False := List.not_mem_nil h

theorem base_fields : base.mem.wf = true ∧ base.I.toNat ≤ indexMax base.cfg.postInc ∧ base.pc.toNat ≤ 0x10FE ∧
    base.cfg.legal ∧ base.stack.length = base.cfg.stackCapacity ∧ base.sp ≤ base.cfg.stackCapacity ∧
    base.fault = FaultRecord.zero ∧ base.runState ≠ .halted := by decide

theorem base_Inv : base.Inv := by
  obtain ⟨h1, h2, h3, h4, h5, h6, h7, h8⟩ := base_fields
  exact ⟨h1, h2, h3, h4, h5, h6, base_stack, fun _ => h7, fun h => absurd h h8, fun e h => (base_reports e h).elim⟩

/-- What is still to come is no part of the invariant. -/
theorem Inv_agenda {s : State} (h : s.Inv) (r : List Request) : ({ s with agenda := r } : State).Inv :=
  ⟨h.memory, h.index, h.pcRange, h.capacity, h.stackSize, h.depth, h.returns, h.noFault, h.faulted, h.reports⟩

theorem witness_StepKeeps : ∃ s t : State, s.Inv ∧ step s = .next t :=
  ⟨{ base with agenda := [.tick] }, _, Inv_agenda base_Inv _, rfl⟩

/-- Memory that lists nothing holds the word 0 at pc; two bytes make it a return. -/
theorem witness_FaultKeeps : ∃ (s : State) (f : Fault), s.Inv ∧ step s = .fault f := by
  refine ⟨{ { base with mem := [(0x201, 0xEE)] } with agenda := [.step 0 0] }, _, Inv_agenda ?_ _, rfl⟩
  have h := base_Inv
  exact ⟨by decide, h.index, h.pcRange, h.capacity, h.stackSize, h.depth, h.returns, h.noFault, h.faulted,
    h.reports⟩

theorem witness_RunsEnd :
    (∃ s t : State, step s = .next t ∧ s.runState = .running) ∧ ∃ (s : State) (f : Fault), step s = .fault f :=
  ⟨⟨{ base with agenda := [.tick] }, _, rfl, rfl⟩, prog 0x200 0x00EE base, _, rfl⟩

end Sys2Proof.Tests
end

section
/-! What an instruction that completes does to the registers (10_state.md R21): one lemma for each operation
that can fault, then one case split over the instructions. -/

namespace Sys2Proof.Machine

/-! ## When an instruction that can fault completes -/

/-- A check that would raise has passed where there is a next state. -/
theorem raise_or_next_eq_next {p : Prop} [Decidable p] {c : FatalCause} {insn addr : Word} {s u t : State}
    (h : (if p then raiseExecute c insn addr s else .next u) = .next t) : ¬p ∧ t = u := by
  split at h
  · cases h
  · next hp => exact ⟨hp, (Host.Outcome.next.inj h).symm⟩

/-- A return that completes has popped its target (41_control_flow.md R130). -/
theorem execRet_eq_next {s t : State} (h : execRet s = .next t) :
    ∃ target s', pop s = some (target, s') ∧ t = jump target s' := by
  unfold execRet at h
  split at h
  · cases h
  · next target s' hpop => exact ⟨target, s', hpop, (Host.Outcome.next.inj h).symm⟩

/-- A call that completes has pushed the advanced pc (41_control_flow.md R132). -/
theorem execCall_eq_next {nnn : Addr12} {s t : State} (h : execCall nnn s = .next t) :
    ∃ s', push s.pc s = some s' ∧ t = jump (addrImm nnn) s' := by
  unfold execCall at h
  split at h
  · cases h
  · next s' hpush => exact ⟨s', hpush, (Host.Outcome.next.inj h).symm⟩

/-- A draw that completes has written the composed framebuffer, then the collision flag
(40_display.md R111, R116). -/
theorem execDrw_eq_next {x y : Reg} {n : Nat} {s t : State} (h : execDrw x y n s = .next t) :
    ∃ cv : Canvas, cv = composite (s.reg x) (s.reg y) (s.mem.readList s.I.toNat n) s.fb ∧
      t = setFlag cv.collision (setFb cv.fb s) :=
  ⟨_, rfl, (raise_or_next_eq_next h).2⟩

/-! ## Registers -/

/-- A return takes from the stack and writes no register. -/
theorem execRet_reg {s t : State} (h : execRet s = .next t) (r : Reg) : t.reg r = s.reg r := by
  obtain ⟨target, s', hpop, rfl⟩ := execRet_eq_next h
  obtain ⟨-, -, rfl⟩ := pop_eq_some hpop
  rfl

/-- A call writes the stack and no register. -/
theorem execCall_reg {nnn : Addr12} {s t : State} (h : execCall nnn s = .next t) (r : Reg) :
    t.reg r = s.reg r := by
  obtain ⟨s', hpush, rfl⟩ := execCall_eq_next h
  obtain ⟨-, rfl⟩ := push_eq_some hpush
  rfl

/-- `VF <- flag` keeps the other registers. -/
theorem setFlag_reg_of_ne {r : Reg} (h : r ≠ VF) (c : Bool) (s : State) : (setFlag c s).reg r = s.reg r :=
  setReg_reg_of_ne h _ s

/-- Fx0A writes no register but Vx, in either mode (44_timers_input.md R245, R246). -/
theorem execLdVxK_reg_of_ne {x r : Reg} {s t : State} (h : execLdVxK x s = .next t) (hr : r ≠ x) :
    t.reg r = s.reg r := by
  unfold execLdVxK at h
  split at h
  · obtain rfl := Host.Outcome.next.inj h
    unfold waitForKey
    split
    · rfl
    · exact setReg_reg_of_ne hr _ s
  · obtain rfl := Host.Outcome.next.inj h
    rfl

/-- Fx65 writes no register above Vx (43_index_memory.md R205). -/
theorem execLoadRegs_reg_of_gt {x r : Reg} {s t : State} (h : execLoadRegs x s = .next t) (hr : x < r) :
    t.reg r = s.reg r := by
  obtain ⟨-, rfl⟩ := raise_or_next_eq_next h
  have hlt : x.val < r.val := hr
  have hout : ¬(0 ≤ r.val ∧ r.val - 0 < (s.mem.readList s.I.toNat (x.val + 1)).length) := by
    rw [readList_length]
    omega
  exact (fillRegs_getElem _ s.V 0 r.val r.isLt).trans (dif_neg hout)

/-- A register that is neither a named destination nor a written flag is kept. -/
theorem exec_reg_of_not_written {i : Instr} {s t : State} {r : Reg} (h : exec i s = .next t)
    (hd : namesDest i r = false) (hf : writesFlag i = true → r ≠ VF) : t.reg r = s.reg r := by
  cases i with
  | cls | jp | seImm | sneImm | seReg | sneReg | ldI | jpV0 | ldDtVx | ldStVx | ldF =>
    cases h
    rfl
  | ret => exact execRet_reg h r
  | call => exact execCall_reg h r
  | skp | sknp | addI | ldB | storeRegs =>
    obtain ⟨-, rfl⟩ := raise_or_next_eq_next h
    rfl
  | ldImm x | addImm x | ldReg x | orReg x | andReg x | xorReg x | rnd x | ldVxDt x =>
    cases h
    exact setReg_reg_of_ne (ne_of_beq_false hd) _ s
  | addReg x | subReg x | shrReg x | subnReg x | shlReg x =>
    cases h
    exact setResultAndFlag_reg_other (ne_of_beq_false hd) (hf rfl) _ _ s
  | drw =>
    obtain ⟨cv, -, rfl⟩ := execDrw_eq_next h
    exact setFlag_reg_of_ne (hf rfl) cv.collision (setFb cv.fb s)
  | ldVxK => exact execLdVxK_reg_of_ne h (ne_of_beq_false hd)
  | loadRegs => exact execLoadRegs_reg_of_gt h (not_le.mp (of_decide_eq_false hd))

/-- A flag-writing instruction leaves a flag in VF, also where VF is its destination (42_alu.md R160). -/
theorem exec_reg_VF_of_writesFlag {i : Instr} {s t : State} (h : exec i s = .next t)
    (hw : writesFlag i = true) : ∃ c, t.reg VF = flagByte c := by
  cases i with
  | addReg | subReg | shrReg | subnReg | shlReg =>
    cases h
    exact ⟨_, setResultAndFlag_reg_VF _ _ _ s⟩
  | drw =>
    obtain ⟨cv, -, rfl⟩ := execDrw_eq_next h
    exact ⟨cv.collision, setReg_reg_self VF _ (setFb cv.fb s)⟩
  | _ => cases hw

/-- Settles O40: what is not written is kept, and a flag byte is 0 or 1. -/
theorem registersChangeOnlyWhereNamed : Obligations.RegistersChangeOnlyWhereNamed := by
  intro i s t h
  refine ⟨fun r hne => ?_, fun hw => ?_⟩
  · by_contra hno
    obtain ⟨hd, hf⟩ := not_or.mp hno
    exact hne (exec_reg_of_not_written h (Bool.eq_false_of_not_eq_true hd) fun hw hr => hf ⟨hr, hw⟩)
  · obtain ⟨c, hc⟩ := exec_reg_VF_of_writesFlag h hw
    rw [hc]
    exact flagByte_zero_or_one c

end Sys2Proof.Machine
end

section
/-! The display instructions (40_display.md): what a write to the framebuffer and to VF leaves unchanged, the sprite
in memory as the composer's rows, and from these 00E0 and Dxyn. -/

namespace Sys2Proof.Machine

/-! ## Frames -/

/-- A register lies in no part: writing one does not decide whether a part is the same. -/
theorem same_setReg_iff {p : Part} {s t : State} (x : Reg) (b : Byte) :
    p.same s (setReg x b t) ↔ p.same s t := by
  cases p <;> exact Iff.rfl

/-- A register that a frame lets go may be written. -/
theorem frameBut_setReg {W : Reg → Prop} {parts : List Part} {s t : State} (h : FrameBut W parts s t) {x : Reg}
    (hx : W x) (b : Byte) : FrameBut W parts s (setReg x b t) := by
  obtain ⟨hregs, hparts⟩ := h
  refine ⟨fun r hr => ?_, fun p hp => (same_setReg_iff x b).mpr (hparts p hp)⟩
  have hne : r ≠ x := fun e => hr (e ▸ hx)
  exact (setReg_reg_of_ne hne b t).trans (hregs r hr)

/-- So may the flag, where the frame lets VF go. -/
theorem frameBut_setFlag {W : Reg → Prop} {parts : List Part} {s t : State} (h : FrameBut W parts s t)
    (hVF : W VF) (c : Bool) : FrameBut W parts s (setFlag c t) :=
  frameBut_setReg h hVF (flagByte c)

/-- Writing the framebuffer changes the display and nothing else. -/
theorem frameBut_setFb (W : Reg → Prop) (fb : Vector PixelRow 32) (s : State) :
    FrameBut W [.display] s (setFb fb s) := by
  refine ⟨fun r _ => setFb_reg fb s r, fun p hp => ?_⟩
  cases p with
  | display => exact absurd (List.mem_singleton_self _) hp
  | _ => simp [Part.same]

/-! ## 00E0 -/

/-- Every pixel of a cleared framebuffer is off, and so is every place off the display. -/
@[simp] theorem pixel_replicate_zero (row col : Nat) : pixel (Vector.replicate 32 0) row col = false := by
  unfold pixel
  split <;> simp

/-- Settles O25: the framebuffer written is 32 rows of 0. -/
theorem clearTurnsEveryPixelOff : Obligations.ClearTurnsEveryPixelOff := by
  intro s
  refine ⟨by decide, setFb (Vector.replicate 32 0) s, rfl, frameBut_setFb noReg _ s,
    fun row col => ?_, fun row => ?_⟩
  · rw [setFb_fb, pixel_replicate_zero]
  · exact Vector.getElem_replicate row.isLt

/-! ## Dxyn -/

/-- The sprite bit over a pixel of rows read from memory is the bit of the byte at its address. -/
theorem spriteBit_readList (m : Memory) (base n X Y row col : Nat) :
    spriteBit (m.readList base n) X Y row col = spriteCovers m base n X Y row col := by
  unfold spriteBit spriteCovers
  rw [readList_length]
  by_cases hY : Y ≤ row
  · by_cases hn : row < Y + n
    · have hlt : row - Y < (m.readList base n).length := by
        rw [readList_length]
        omega
      rw [List.getD_eq_getElem _ _ hlt, readList_getElem]
    · simp [hn]
  · simp [hY]

/-- The composer over a sprite in memory, pixel by pixel (40_display.md R113, R114). -/
theorem pixel_composite (X Y : Byte) (m : Memory) (base n : Nat) (fb : Vector PixelRow 32) {row col : Nat}
    (hrow : row < 32) (hcol : col < 64) :
    pixel (composite X Y (m.readList base n) fb).fb row col =
      (pixel fb row col ^^ spriteCovers m base n X.toNat Y.toNat row col) := by
  rw [← spriteBit_readList]
  exact (drawRows_spec X.toNat _ Y.toNat _).1 row col hrow hcol

/-- The composer starts without a collision, so the mark is this draw's own (40_display.md R115). -/
theorem composite_collision (s : State) (X Y : Byte) (n : Nat) :
    (composite X Y (s.mem.readList s.I.toNat n) s.fb).collision = true ↔
      ∃ row col, drawCollidesAt s X Y n row col := by
  have hmark := (drawRows_spec X.toNat (s.mem.readList s.I.toNat n) Y.toNat ⟨s.fb, false⟩).2
  simp only [spriteBit_readList, Bool.false_eq_true, false_or] at hmark
  refine hmark.trans (exists₂_congr fun row col => ?_)
  rw [drawCollidesAt, and_comm (a := pixel s.fb row col = true)]

/-- Dxyn with its sprite in memory completes (40_display.md R111, R112). -/
theorem execDrw_of_inRange {s : State} (x y : Reg) {n : Nat} (h : n = 0 ∨ s.I.toNat + n - 1 ≤ 0xFFF) :
    exec (.drw x y n) s =
      .next (setFlag (composite (s.reg x) (s.reg y) (s.mem.readList s.I.toNat n) s.fb).collision
        (setFb (composite (s.reg x) (s.reg y) (s.mem.readList s.I.toNat n) s.fb).fb s)) :=
  if_neg (Bool.eq_false_iff.mp (rangeFaults_eq_false.mpr h))

/-- VF reads as the flag written last. -/
theorem setFlag_reg_VF (c : Bool) (s : State) : (setFlag c s).reg VF = flagByte c := setReg_reg_self VF _ s

theorem flagByte_eq_one_iff (c : Bool) : flagByte c = 1 ↔ c = true := by
  cases c <;> decide

/-- Settles O26: the state written holds the composer's framebuffer and its mark as a flag. -/
theorem drawXorsTheClippedSprite : Obligations.DrawXorsTheClippedSprite := by
  intro s x y n h
  refine ⟨_, execDrw_of_inRange x y h, fun row col hrow hcol => ?_, ?_, ?_, ?_⟩
  · exact pixel_composite _ _ s.mem _ n s.fb hrow hcol
  · rw [setFlag_reg_VF, flagByte_eq_one_iff, composite_collision]
  · rw [setFlag_reg_VF]
    exact flagByte_zero_or_one _
  · exact frameBut_setFlag (frameBut_setFb _ _ s) (by rfl) _

end Sys2Proof.Machine
end

section
/-! The skips (41_control_flow.md R133 to R136): what a write to pc leaves unchanged, what a skip does in either case
of its condition, and from these 3xkk, 4xkk, 5xy0 and 9xy0. -/

namespace Sys2Proof.Machine

/-- Writing pc changes pc and nothing else. -/
theorem frameBut_jump (W : Reg → Prop) (target : Word) (s : State) : FrameBut W [.pc] s (jump target s) := by
  refine ⟨fun r _ => jump_reg target s r, fun p hp => ?_⟩
  cases p with
  | pc => exact absurd (List.mem_singleton_self _) hp
  | _ => simp [Part.same]

/-- A skip that is taken adds 2 to the advanced pc (41_control_flow.md R138). -/
@[simp] theorem skipIf_true_pc (s : State) : (skipIf true s).pc = s.pc + 2 := rfl

@[simp] theorem skipIf_false_pc (s : State) : (skipIf false s).pc = s.pc := rfl

/-- An instruction that ends in a skip, by what its test means: `p` where it succeeds, `q` where it fails. -/
theorem exec_skip {i : Instr} {s : State} {c : Bool} {p q : Prop} (hexec : exec i s = .next (skipIf c s))
    (hp : p → c = true) (hq : q → c = false) :
    ∃ t, exec i s = .next t ∧ FrameBut noReg [.pc] s t ∧ (p → t.pc = s.pc + 2) ∧ (q → t.pc = s.pc) := by
  refine ⟨skipIf c s, hexec, frameBut_jump noReg _ s, fun h => ?_, fun h => ?_⟩
  · rw [hp h, skipIf_true_pc]
  · rw [hq h, skipIf_false_pc]

/-- Settles O33: each row is the fixed bits of its packing, and each instruction is a skip on its own test. -/
theorem skipsMovePcByTwoOnTheirCondition : Obligations.SkipsMovePcByTwoOnTheirCondition := by
  intro s x y kk
  refine ⟨Laws.packXKK_fixedHigh 0x3 x kk, Laws.packXKK_fixedHigh 0x4 x kk, Laws.packXYN_fixed 0x5 0x0 x y,
    Laws.packXYN_fixed 0x9 0x0 x y, ?seImm, ?sneImm, ?seReg, ?sneReg⟩
  case seImm | seReg => exact exec_skip rfl beq_iff_eq.mpr beq_eq_false_iff_ne.mpr
  case sneImm | sneReg => exact exec_skip rfl bne_iff_ne.mpr bne_eq_false_iff_eq.mpr

end Sys2Proof.Machine
end

section
/-! The register and arithmetic instructions (42_alu.md R160 to R168 and R170; 44_timers_input.md R230): what a write
to Vx, and a write to Vx and then VF, leaves unchanged, and from these the loads, 7xkk, the bitwise instructions, 8xy4,
8xy5 and 8xy7. -/

namespace Sys2Proof.Machine

/-! ## Writes to Vx and VF -/

/-- From a state to itself nothing changes, whatever the frame lets go. -/
theorem frameBut_refl (W : Reg → Prop) (parts : List Part) (s : State) : FrameBut W parts s s := by
  refine ⟨fun _ _ => rfl, fun p _ => ?_⟩
  cases p <;> simp [Part.same]

/-- Writing Vx changes Vx and nothing else. -/
theorem frameBut_setReg_self (x : Reg) (b : Byte) (s : State) : FrameBut (· = x) [] s (setReg x b s) :=
  frameBut_setReg (frameBut_refl (· = x) [] s) rfl b

/-- Writing a result and then a flag changes Vx and VF and nothing else. -/
theorem frameBut_setResultAndFlag (x : Reg) (b : Byte) (c : Bool) (s : State) :
    FrameBut (fun r => r = x ∨ r = VF) [] s (setResultAndFlag x b c s) :=
  frameBut_setFlag (frameBut_setReg (frameBut_refl _ _ s) (.inl rfl) b) (.inr rfl) c

/-- An instruction that writes a result with the property `ok` to Vx, then the flag of `p` to VF (42_alu.md R160). -/
theorem exec_setResultAndFlag {i : Instr} {s : State} {x : Reg} {b : Byte} {p : Prop} [Decidable p]
    (ok : Byte → Prop) (hexec : exec i s = .next (setResultAndFlag x b (decide p) s)) (hb : ok b) :
    ∃ t, exec i s = .next t ∧ (x ≠ VF → ok (t.reg x)) ∧ (t.reg VF).toNat = (if p then 1 else 0) ∧
      FrameBut (fun r => r = x ∨ r = VF) [] s t := by
  refine ⟨_, hexec, fun hx => ?_, ?_, frameBut_setResultAndFlag x b _ s⟩
  · rwa [setResultAndFlag_reg_dest hx]
  · rw [setResultAndFlag_reg_VF, flagByte_toNat]
    simp only [decide_eq_true_eq]

/-! ## No flag -/

/-- Settles O11: each load is one write of its source to Vx. -/
theorem loadsPutTheirSourceInVx : Obligations.LoadsPutTheirSourceInVx := by
  intro s x y kk
  exact ⟨Laws.packXKK_fixedHigh 0x6 x kk, Laws.packXYN_fixed 0x8 0x0 x y, Laws.packXKK_fixed 0xF x 0x07,
    ⟨_, rfl, setReg_reg_self x kk s, frameBut_setReg_self x kk s⟩,
    ⟨_, rfl, setReg_reg_self x (s.reg y) s, frameBut_setReg_self x (s.reg y) s⟩,
    ⟨_, rfl, setReg_reg_self x s.dt s, frameBut_setReg_self x s.dt s⟩⟩

/-- Settles O12: the byte written is the sum of two bytes, and no other write follows. -/
theorem addImmediateWrapsWithoutFlag : Obligations.AddImmediateWrapsWithoutFlag := by
  intro s x kk
  refine ⟨Laws.packXKK_fixedHigh 0x7 x kk, _, rfl, ?_, frameBut_setReg_self x (s.reg x + kk) s⟩
  rw [setReg_reg_self, BitVec.toNat_add]

/-- Settles O13: the byte written is the bitwise operation, and no other write follows. -/
theorem logicIsBitwiseWithoutFlag : Obligations.LogicIsBitwiseWithoutFlag := by
  intro s x y
  refine ⟨Laws.packXYN_fixed 0x8 0x1 x y, Laws.packXYN_fixed 0x8 0x2 x y, Laws.packXYN_fixed 0x8 0x3 x y,
    ⟨_, rfl, frameBut_setReg_self x _ s, fun k => ?or⟩, ⟨_, rfl, frameBut_setReg_self x _ s, fun k => ?and⟩,
    ⟨_, rfl, frameBut_setReg_self x _ s, fun k => ?xor⟩⟩
  case or => rw [setReg_reg_self, BitVec.getLsbD_or]
  case and => rw [setReg_reg_self, BitVec.getLsbD_and]
  case xor => rw [setReg_reg_self, BitVec.getLsbD_xor]

/-! ## A result, then a flag -/

/-- Settles O14: the byte written is the sum of two bytes, and the flag compares the same operands. -/
theorem addWritesSumThenCarry : Obligations.AddWritesSumThenCarry := by
  intro s x y
  exact ⟨Laws.packXYN_fixed 0x8 0x4 x y,
    exec_setResultAndFlag (fun b => b.toNat = ((s.reg x).toNat + (s.reg y).toNat) % 256) rfl
      (BitVec.toNat_add _ _)⟩

/-- A difference of two bytes is the number that, added to the subtrahend modulo 256, gives the minuend. -/
theorem toNat_sub_add_toNat_mod (a b : Byte) : ((a - b).toNat + b.toNat) % 256 = a.toNat := by
  rw [← BitVec.toNat_add, BitVec.sub_add_cancel]

/-- Settles O15: 8xy5 and 8xy7 write one difference with the operands exchanged, and the flag compares them. -/
theorem subtractWritesDifferenceThenStrictFlag : Obligations.SubtractWritesDifferenceThenStrictFlag := by
  intro s x y
  exact ⟨Laws.packXYN_fixed 0x8 0x5 x y, Laws.packXYN_fixed 0x8 0x7 x y,
    exec_setResultAndFlag (fun b => (b.toNat + (s.reg y).toNat) % 256 = (s.reg x).toNat) rfl
      (toNat_sub_add_toNat_mod _ _),
    exec_setResultAndFlag (fun b => (b.toNat + (s.reg x).toNat) % 256 = (s.reg y).toNat) rfl
      (toNat_sub_add_toNat_mod _ _)⟩

end Sys2Proof.Machine
end

section
/-! The encoding (30_encoding.md, sections 2 and 4): the decoder reads an encoding back, a word that decodes is an
encoding, the rows of the match and mask table sorted by their mask, and a reader of assembler lines. -/

namespace Sys2Proof

/-! ## From an instruction to its word and back -/

theorem decode_of_dispatch {w : Word} {i : Instr}
    (h : dispatch (fieldN0 w) (fieldX w) (fieldY w) (fieldN w) (fieldKK w) (fieldNNN w) = some i) :
    decode w = .ok i := by
  rw [decode, h]

theorem dispatch_of_decode {w : Word} {i : Instr} (h : decode w = .ok i) :
    dispatch (fieldN0 w) (fieldX w) (fieldY w) (fieldN w) (fieldKK w) (fieldNNN w) = some i := by
  unfold decode at h
  split at h
  · next j hj => rw [hj, Except.ok.inj h]
  · cases h

/-- The decoder gives one reason only, and it names the word (30_encoding.md R88). -/
theorem decode_error {w : Word} {e : Reject} (h : decode w = .error e) : e = .unknownOpcode w := by
  unfold decode at h
  split at h
  · cases h
  · exact (Except.error.inj h).symm

/-- The fields of a packed word, dispatched, are the instruction packed. -/
theorem decode_encode {i : Instr} (h : i.WellFormed) : decode (encode i) = .ok i := by
  apply decode_of_dispatch
  cases i with
  | cls | ret => decide
  | jp | call | ldI | jpV0 => simp [encode, dispatch]
  | seImm | sneImm | ldImm | addImm | rnd => simp [encode, dispatch]
  | seReg | sneReg => simp [encode, dispatch]
  | ldReg | orReg | andReg | xorReg | addReg | subReg | shrReg | subnReg | shlReg =>
    simp [encode, dispatch, dispatch8]
  | drw x y n =>
    have hn : n < 16 := by simpa [Instr.WellFormed, Instr.wellFormed, heightFits] using h
    simp [encode, dispatch, Nat.mod_eq_of_lt hn]
  | skp | sknp => simp [encode, dispatch, dispatchE]
  | ldVxDt | ldVxK | ldDtVx | ldStVx | addI | ldF | ldB | storeRegs | loadRegs =>
    simp [encode, dispatch, dispatchF]

/-- Settles O1: the packed fields, dispatched, name the instruction again. -/
theorem decodeOfEncodeIsTheInstruction : Obligations.DecodeOfEncodeIsTheInstruction :=
  fun _ h => decode_encode h

/-- A row of a dispatch is taken, or a later one is. -/
theorem row_or_later {c : Prop} [Decidable c] {i j : Instr} {later : Option Instr}
    (h : (if c then some j else later) = some i) : (c ∧ j = i) ∨ later = some i := by
  split at h
  · next hc => exact .inl ⟨hc, Option.some.inj h⟩
  · exact .inr h

/-- The 8 rows: the sub-opcode found is the last digit packed. -/
theorem encode_of_dispatch8 {w : Word} {i : Instr} (h0 : fieldN0 w = 0x8)
    (h : dispatch8 (fieldX w) (fieldY w) (fieldN w) = some i) : encode i = w ∧ i.WellFormed := by
  iterate 9
    obtain ⟨hsub, rfl⟩ | h := row_or_later h
    · exact ⟨packXYN_fields w 0x8 _ h0 hsub, rfl⟩
  cases h

/-- A word of which the last byte is known, packed from its own register field. -/
theorem packXKK_of_fieldKK {w : Word} {a : BitVec 4} {kk : Byte} (h0 : fieldN0 w = a.toNat) (hk : fieldKK w = kk) :
    packXKK a (fieldX w) kk = w := by
  rw [← hk]
  exact packXKK_fields w a h0

/-- The E rows: the sub-opcode found is the last byte packed. -/
theorem encode_of_dispatchE {w : Word} {i : Instr} (h0 : fieldN0 w = 0xE)
    (h : dispatchE (fieldX w) (fieldKK w) = some i) : encode i = w ∧ i.WellFormed := by
  iterate 2
    obtain ⟨hsub, rfl⟩ | h := row_or_later h
    · exact ⟨packXKK_of_fieldKK h0 hsub, rfl⟩
  cases h

/-- The F rows: the sub-opcode found is the last byte packed. -/
theorem encode_of_dispatchF {w : Word} {i : Instr} (h0 : fieldN0 w = 0xF)
    (h : dispatchF (fieldX w) (fieldKK w) = some i) : encode i = w ∧ i.WellFormed := by
  iterate 9
    obtain ⟨hsub, rfl⟩ | h := row_or_later h
    · exact ⟨packXKK_of_fieldKK h0 hsub, rfl⟩
  cases h

/-- The 0 rows fix all of `nnn`, and so the whole word (30_encoding.md R90). -/
theorem eq_of_fieldNNN {w v : Word} (h0 : fieldN0 w = fieldN0 v) (h : fieldNNN w = fieldNNN v) : w = v := by
  have hn := congrArg BitVec.toNat h
  rw [fieldNNN_toNat, fieldNNN_toNat] at hn
  rw [fieldN0_eq, fieldN0_eq] at h0
  apply BitVec.eq_of_toNat_eq
  omega

/-- Where the dispatch finds an instruction, packing its operands gives the word the fields came from. -/
theorem encode_of_dispatch {w : Word} {i : Instr}
    (h : dispatch (fieldN0 w) (fieldX w) (fieldY w) (fieldN w) (fieldKK w) (fieldNNN w) = some i) :
    encode i = w ∧ i.WellFormed := by
  unfold dispatch at h
  split at h
  case h_1 h0 =>
    iterate 2
      obtain ⟨hsub, rfl⟩ | h := row_or_later h
      · exact ⟨(eq_of_fieldNNN h0 hsub).symm, rfl⟩
    cases h
  case h_2 h0 | h_3 h0 | h_11 h0 | h_12 h0 =>
    cases h
    exact ⟨packNNN_fields w _ h0, rfl⟩
  case h_4 h0 | h_5 h0 | h_7 h0 | h_8 h0 | h_13 h0 =>
    cases h
    exact ⟨packXKK_fields w _ h0, rfl⟩
  case h_6 h0 | h_10 h0 =>
    obtain ⟨hsub, rfl⟩ | h := row_or_later h
    · exact ⟨packXYN_fields w _ 0x0 h0 hsub, rfl⟩
    · cases h
  case h_9 h0 => exact encode_of_dispatch8 h0 h
  case h_14 h0 =>
    cases h
    have hn : fieldN w < 16 := BitVec.isLt _
    refine ⟨packXYN_fields w 0xD _ h0 ?_, decide_eq_true hn⟩
    rw [BitVec.toNat_ofNat, Nat.mod_eq_of_lt hn]
  case h_15 h0 => exact encode_of_dispatchE h0 h
  case h_16 h0 => exact encode_of_dispatchF h0 h
  case h_17 => cases h

/-- Settles O2: where the dispatch answers, its operands are the fields of the word. -/
theorem encodeOfDecodeIsTheWord : Obligations.EncodeOfDecodeIsTheWord :=
  fun _ _ h => encode_of_dispatch (dispatch_of_decode h)

/-! ## The table of matches and masks (30_encoding.md R85) -/

/-- What the dispatch finds in a word. -/
def dispatchWord (w : Word) : Option Instr :=
  dispatch (fieldN0 w) (fieldX w) (fieldY w) (fieldN w) (fieldKK w) (fieldNNN w)

theorem exists_decode_iff {w : Word} : (∃ i, decode w = .ok i) ↔ (dispatchWord w).isSome = true := by
  rw [Option.isSome_iff_exists]
  exact exists_congr fun i => ⟨dispatch_of_decode, decode_of_dispatch⟩

/-- A mask that covers a field keeps it. -/
theorem extractLsb'_and_of_covers {w m : Word} {start len : Nat} (h : m.extractLsb' start len = BitVec.allOnes len) :
    (w &&& m).extractLsb' start len = w.extractLsb' start len := by
  rw [BitVec.extractLsb'_and, h, BitVec.and_allOnes]

theorem fieldN0_and_F000 (w : Word) : fieldN0 (w &&& 0xF000) = fieldN0 w :=
  congrArg BitVec.toNat (extractLsb'_and_of_covers rfl)

theorem fieldN0_and_F00F (w : Word) : fieldN0 (w &&& 0xF00F) = fieldN0 w :=
  congrArg BitVec.toNat (extractLsb'_and_of_covers rfl)

theorem fieldN_and_F00F (w : Word) : fieldN (w &&& 0xF00F) = fieldN w :=
  congrArg BitVec.toNat (extractLsb'_and_of_covers rfl)

theorem fieldN0_and_F0FF (w : Word) : fieldN0 (w &&& 0xF0FF) = fieldN0 w :=
  congrArg BitVec.toNat (extractLsb'_and_of_covers rfl)

theorem fieldKK_and_F0FF (w : Word) : fieldKK (w &&& 0xF0FF) = fieldKK w :=
  extractLsb'_and_of_covers rfl

/-! What the dispatch asks of the fields, by the first digit. -/

theorem dispatch_isSome_of_wide {n0 : Nat} (h : n0 ∈ [1, 2, 3, 4, 6, 7, 0xA, 0xB, 0xC, 0xD]) (x y : Reg) (n : Nat)
    (kk : Byte) (nnn : Addr12) : (dispatch n0 x y n kk nnn).isSome = true := by
  fin_cases h <;> rfl

theorem dispatch_isSome_of_digit {n0 : Nat} (h : n0 ∈ [5, 8, 9]) (n : Nat) (x y x' y' : Reg) (kk kk' : Byte)
    (nnn nnn' : Addr12) : (dispatch n0 x y n kk nnn).isSome = (dispatch n0 x' y' n kk' nnn').isSome := by
  fin_cases h <;> simp [dispatch, dispatch8, apply_ite Option.isSome]

theorem dispatch_isSome_of_byte {n0 : Nat} (h : n0 ∈ [0xE, 0xF]) (kk : Byte) (x y x' y' : Reg) (n n' : Nat)
    (nnn nnn' : Addr12) : (dispatch n0 x y n kk nnn).isSome = (dispatch n0 x' y' n' kk nnn').isSome := by
  fin_cases h <;> simp [dispatch, dispatchE, dispatchF, apply_ite Option.isSome]

/-- Every row has one of four masks, and the mask covers what the dispatch asks for its first digit. -/
theorem opcodeTable_masks : ∀ r ∈ opcodeTable, r.mask = 0xFFFF ∨
    (r.mask = 0xF000 ∧ fieldN0 r.fixed ∈ [1, 2, 3, 4, 6, 7, 0xA, 0xB, 0xC, 0xD]) ∨
    (r.mask = 0xF00F ∧ fieldN0 r.fixed ∈ [5, 8, 9]) ∨ (r.mask = 0xF0FF ∧ fieldN0 r.fixed ∈ [0xE, 0xF]) := by
  decide

/-- The fixed bits of a row, the others 0, are a word the dispatch knows. -/
theorem dispatchWord_fixed : ∀ r ∈ opcodeTable, (dispatchWord r.fixed).isSome = true := by
  decide

/-- So is every other word of the row. -/
theorem dispatchWord_of_matches {w : Word} {r : OpcodeRow} (hr : r ∈ opcodeTable) (h : r.matches w = true) :
    (dispatchWord w).isSome = true := by
  have hfix := dispatchWord_fixed r hr
  have hand : w &&& r.mask = r.fixed := beq_iff_eq.mp h
  obtain hm | ⟨hm, h0⟩ | ⟨hm, h0⟩ | ⟨hm, h0⟩ := opcodeTable_masks r hr <;> rw [hm] at hand
  · have hw : w = r.fixed := hand ▸ (BitVec.and_allOnes).symm
    rwa [hw]
  · rw [← hand, fieldN0_and_F000] at h0
    exact dispatch_isSome_of_wide h0 _ _ _ _ _
  · rw [← hand, fieldN0_and_F00F] at h0
    rw [← hand, dispatchWord, fieldN0_and_F00F, fieldN_and_F00F] at hfix
    exact (dispatch_isSome_of_digit h0 _ _ _ _ _ _ _ _ _).trans hfix
  · rw [← hand, fieldN0_and_F0FF] at h0
    rw [← hand, dispatchWord, fieldN0_and_F0FF, fieldKK_and_F0FF] at hfix
    exact (dispatch_isSome_of_byte h0 _ _ _ _ _ _ _ _ _).trans hfix

/-- Every instruction's encoding has its own row. -/
theorem Laws.OwnRow.all : ∀ i : Instr, OwnRow.Statement i :=
  Instr.rec cls ret jp call seImm sneImm seReg ldImm addImm ldReg orReg andReg xorReg addReg subReg shrReg subnReg
    shlReg sneReg ldI jpV0 rnd drw skp sknp ldVxDt ldVxK ldDtVx ldStVx addI ldF ldB storeRegs loadRegs

theorem exists_decode_iff_matches (w : Word) :
    (∃ i, decode w = .ok i) ↔ ∃ r ∈ opcodeTable, r.matches w = true := by
  constructor
  · rintro ⟨i, hi⟩
    obtain ⟨r, hr, hm⟩ := Laws.OwnRow.all i
    have hw : encode i = w := (encode_of_dispatch (dispatch_of_decode hi)).1
    exact ⟨r, List.mem_of_getElem? hr, hw ▸ hm⟩
  · rintro ⟨r, hr, hm⟩
    exact exists_decode_iff.mpr (dispatchWord_of_matches hr hm)

theorem decode_of_no_match {w : Word} (h : ∀ r ∈ opcodeTable, r.matches w = false) :
    decode w = .error (.unknownOpcode w) := by
  cases hd : decode w with
  | ok i =>
    obtain ⟨r, hr, hm⟩ := (exists_decode_iff_matches w).mp ⟨i, hd⟩
    rw [h r hr] at hm
    cases hm
  | error e => rw [decode_error hd]

/-- Settles O3: an instruction read has its own row, and a row's mask covers all that the dispatch asks for. -/
theorem decoderAcceptsExactlyTheTable : Obligations.DecoderAcceptsExactlyTheTable :=
  fun w => ⟨exists_decode_iff_matches w, decode_of_no_match⟩

/-- Two rows whose fixed bits agree where both masks look are one row. -/
theorem opcodeTable_agree : ∀ j k : Fin opcodeTable.length,
    opcodeTable[j].fixed &&& opcodeTable[k].mask = opcodeTable[k].fixed &&& opcodeTable[j].mask → j = k := by
  decide

/-- Settles O4: a word of two rows makes their fixed bits agree under both masks. -/
theorem opcodeRowsAreDisjoint : Obligations.OpcodeRowsAreDisjoint := by
  intro w j k hj hk
  apply opcodeTable_agree
  rw [← beq_iff_eq.mp hj, ← beq_iff_eq.mp hk, BitVec.and_assoc, BitVec.and_assoc,
    BitVec.and_comm (opcodeTable[j].mask)]

/-- Settles O5: seven encodings and two words of no row. -/
theorem wordsOfTheTableDecode : Obligations.WordsOfTheTableDecode := by
  unfold Obligations.WordsOfTheTableDecode
  decide

end Sys2Proof

namespace Sys2Proof.Machine

/-! ## Assembler lines (30_encoding.md R92) -/

/-- Reads a line of rule R92 back, where it is one. -/
def assemble : Line → Option Instr
  | ⟨.CLS, []⟩ => some .cls
  | ⟨.RET, []⟩ => some .ret
  | ⟨.JP, [.addr nnn]⟩ => some (.jp nnn)
  | ⟨.JP, [.reg _, .addr nnn]⟩ => some (.jpV0 nnn)
  | ⟨.CALL, [.addr nnn]⟩ => some (.call nnn)
  | ⟨.SE, [.reg x, .imm kk]⟩ => some (.seImm x kk)
  | ⟨.SE, [.reg x, .reg y]⟩ => some (.seReg x y)
  | ⟨.SNE, [.reg x, .imm kk]⟩ => some (.sneImm x kk)
  | ⟨.SNE, [.reg x, .reg y]⟩ => some (.sneReg x y)
  | ⟨.LD, [.reg x, .imm kk]⟩ => some (.ldImm x kk)
  | ⟨.LD, [.reg x, .reg y]⟩ => some (.ldReg x y)
  | ⟨.LD, [.I, .addr nnn]⟩ => some (.ldI nnn)
  | ⟨.LD, [.reg x, .DT]⟩ => some (.ldVxDt x)
  | ⟨.LD, [.reg x, .K]⟩ => some (.ldVxK x)
  | ⟨.LD, [.DT, .reg x]⟩ => some (.ldDtVx x)
  | ⟨.LD, [.ST, .reg x]⟩ => some (.ldStVx x)
  | ⟨.LD, [.F, .reg x]⟩ => some (.ldF x)
  | ⟨.LD, [.B, .reg x]⟩ => some (.ldB x)
  | ⟨.LD, [.indirectI, .reg x]⟩ => some (.storeRegs x)
  | ⟨.LD, [.reg x, .indirectI]⟩ => some (.loadRegs x)
  | ⟨.ADD, [.reg x, .imm kk]⟩ => some (.addImm x kk)
  | ⟨.ADD, [.reg x, .reg y]⟩ => some (.addReg x y)
  | ⟨.ADD, [.I, .reg x]⟩ => some (.addI x)
  | ⟨.OR, [.reg x, .reg y]⟩ => some (.orReg x y)
  | ⟨.AND, [.reg x, .reg y]⟩ => some (.andReg x y)
  | ⟨.XOR, [.reg x, .reg y]⟩ => some (.xorReg x y)
  | ⟨.SUB, [.reg x, .reg y]⟩ => some (.subReg x y)
  | ⟨.SHR, [.reg x, .reg y]⟩ => some (.shrReg x y)
  | ⟨.SUBN, [.reg x, .reg y]⟩ => some (.subnReg x y)
  | ⟨.SHL, [.reg x, .reg y]⟩ => some (.shlReg x y)
  | ⟨.RND, [.reg x, .imm kk]⟩ => some (.rnd x kk)
  | ⟨.DRW, [.reg x, .reg y, .count n]⟩ => some (.drw x y n)
  | ⟨.SKP, [.reg x]⟩ => some (.skp x)
  | ⟨.SKNP, [.reg x]⟩ => some (.sknp x)
  | _ => none

theorem assemble_asmOf (i : Instr) : assemble (asmOf i) = some i := by
  cases i <;> rfl

/-- Settles O6: the assembler reads back what was written. -/
theorem assemblerLineNamesOneInstruction : Obligations.AssemblerLineNamesOneInstruction := by
  intro i j h
  apply Option.some.inj
  rw [← assemble_asmOf i, h, assemble_asmOf]

end Sys2Proof.Machine
end

section
/-! What an instruction does, over all instructions (10_state.md; 60_exceptions.md R269): which parts of the state it
can change, how it can fault, and which inputs it reads. One lemma for each operation that writes a part, then one case
split over the instructions for each rule. -/

namespace Sys2Proof.Machine

/-! ## Parts that an operation leaves the same -/

theorem same_refl (p : Part) (s : State) : p.same s s := by
  cases p <;> simp [Part.same]

section
variable {p : Part} {s t : State} (h : p.same s t)
include h

theorem same_withRegs (V : Vector Byte 16) : p.same s { t with V := V } := by
  cases p <;> exact h

theorem same_jump (hp : p ≠ .pc) (w : Word) : p.same s (jump w t) := by
  cases p with
  | pc => exact absurd rfl hp
  | _ => exact h

theorem same_setI (hp : p ≠ .index) (w : Word) : p.same s (setI w t) := by
  cases p with
  | index => exact absurd rfl hp
  | _ => exact h

theorem same_setMem (hp : p ≠ .memory) (m : Memory) : p.same s (setMem m t) := by
  cases p with
  | memory => exact absurd rfl hp
  | _ => exact h

theorem same_setFb (hp : p ≠ .display) (fb : Vector PixelRow 32) : p.same s (setFb fb t) := by
  cases p with
  | display => exact absurd rfl hp
  | _ => exact h

theorem same_withStack (hp : p ≠ .stack) (stack : List Word) (sp : Nat) :
    p.same s { t with stack := stack, sp := sp } := by
  cases p with
  | stack => exact absurd rfl hp
  | _ => exact h

theorem same_setDt (hp : p ≠ .delay) (b : Byte) : p.same s (setDt b t) := by
  cases p with
  | delay => exact absurd rfl hp
  | _ => exact h

theorem same_setSt (hp : p ≠ .sound) (b : Byte) : p.same s (setSt b t) := by
  cases p with
  | sound => exact absurd rfl hp
  | _ => exact h

theorem same_report (hp : p ≠ .events) (c : Cause) (a insn : Word) : p.same s (report c a insn t) := by
  cases p with
  | events => exact absurd rfl hp
  | _ => exact h

end

/-! ## The instructions that can fault or wait, case by case -/

theorem exec_ret_of_pos {s : State} (h : 0 < s.sp) :
    exec .ret s = .next (jump (s.stack.getD (s.sp - 1) 0) { s with sp := s.sp - 1 }) := by
  rw [exec, execRet, pop, if_neg (by omega)]

theorem exec_ret_of_empty {s : State} (h : s.sp = 0) :
    exec .ret s = raiseExecute .stackUnderflow (encode .ret) 0 s := by
  rw [exec, execRet, pop_eq_none.mpr h]

theorem exec_call_of_room {s : State} (h : s.sp < s.cfg.stackCapacity) (nnn : Addr12) :
    exec (.call nnn) s =
      .next (jump (addrImm nnn) { s with stack := s.stack.set s.sp s.pc, sp := s.sp + 1 }) := by
  rw [exec, execCall, push, if_neg (by omega)]

theorem exec_call_of_full {s : State} (h : s.cfg.stackCapacity ≤ s.sp) (nnn : Addr12) :
    exec (.call nnn) s = raiseExecute .stackOverflow (encode (.call nnn)) 0 s := by
  rw [exec, execCall, push_eq_none.mpr h]

theorem exec_ldVxK_of_newKey {s : State} (h : s.cfg.keyWait = .suspend) {k : Nat}
    (hk : lowestNewKey s.keys s.keyPrev = some k) (x : Reg) :
    exec (.ldVxK x) s = .next (setReg x (BitVec.ofNat 8 k) s) := by
  rw [exec, execLdVxK, h, waitForKey, hk]

theorem exec_ldVxK_of_noNewKey {s : State} (h : s.cfg.keyWait = .suspend)
    (hk : lowestNewKey s.keys s.keyPrev = none) (x : Reg) :
    exec (.ldVxK x) s = .next (jump (insnAddr s) s) := by
  rw [exec, execLdVxK, h, waitForKey, hk]

theorem exec_ldVxK_of_nop {s : State} (h : s.cfg.keyWait = .nop) (x : Reg) :
    exec (.ldVxK x) s = .next (report .keyWaitUnsupported (insnAddr s) (encode (.ldVxK x)) s) := by
  rw [exec, execLdVxK, h]

/-- What Fx0A can be: the register loaded, the instruction stalled, or the report. -/
theorem exec_ldVxK_cases (x : Reg) (s : State) :
    (s.cfg.keyWait = .suspend ∧ ∃ k, lowestNewKey s.keys s.keyPrev = some k ∧
      exec (.ldVxK x) s = .next (setReg x (BitVec.ofNat 8 k) s)) ∨
    (s.cfg.keyWait = .suspend ∧ lowestNewKey s.keys s.keyPrev = none ∧
      exec (.ldVxK x) s = .next (jump (insnAddr s) s)) ∨
    (s.cfg.keyWait = .nop ∧
      exec (.ldVxK x) s = .next (report .keyWaitUnsupported (insnAddr s) (encode (.ldVxK x)) s)) := by
  cases hm : s.cfg.keyWait with
  | nop => exact .inr (.inr ⟨rfl, exec_ldVxK_of_nop hm x⟩)
  | suspend =>
    cases hk : lowestNewKey s.keys s.keyPrev with
    | none => exact .inr (.inl ⟨rfl, rfl, exec_ldVxK_of_noNewKey hm hk x⟩)
    | some k => exact .inl ⟨rfl, k, rfl, exec_ldVxK_of_newKey hm hk x⟩

/-- What a return can be. -/
theorem exec_ret_cases (s : State) :
    (0 < s.sp ∧ exec .ret s = .next (jump (s.stack.getD (s.sp - 1) 0) { s with sp := s.sp - 1 })) ∨
    (s.sp = 0 ∧ exec .ret s = raiseExecute .stackUnderflow (encode .ret) 0 s) :=
  (Nat.eq_zero_or_pos s.sp).symm.imp (fun h => ⟨h, exec_ret_of_pos h⟩) fun h => ⟨h, exec_ret_of_empty h⟩

/-- What a call can be. -/
theorem exec_call_cases (nnn : Addr12) (s : State) :
    (s.sp < s.cfg.stackCapacity ∧ exec (.call nnn) s =
      .next (jump (addrImm nnn) { s with stack := s.stack.set s.sp s.pc, sp := s.sp + 1 })) ∨
    (s.cfg.stackCapacity ≤ s.sp ∧
      exec (.call nnn) s = raiseExecute .stackOverflow (encode (.call nnn)) 0 s) :=
  (Nat.lt_or_ge s.sp s.cfg.stackCapacity).imp (fun h => ⟨h, exec_call_of_room h nnn⟩)
    fun h => ⟨h, exec_call_of_full h nnn⟩

/-! ## The parts an instruction writes -/

/-- The parts each instruction may change when it completes, the general registers apart. -/
def writesParts : Instr → List Part
  | .cls | .drw _ _ _ => [.display]
  | .ret | .call _ => [.pc, .stack]
  | .jp _ | .jpV0 _ | .seImm _ _ | .sneImm _ _ | .seReg _ _ | .sneReg _ _ | .skp _ | .sknp _ => [.pc]
  | .ldI _ | .addI _ | .ldF _ | .loadRegs _ => [.index]
  | .ldB _ => [.memory]
  | .storeRegs _ => [.memory, .index]
  | .ldDtVx _ => [.delay]
  | .ldStVx _ => [.sound]
  | .ldVxK _ => [.pc, .events]
  | .ldImm _ _ | .addImm _ _ | .ldReg _ _ | .orReg _ _ | .andReg _ _ | .xorReg _ _ | .addReg _ _ | .subReg _ _
  | .shrReg _ _ | .subnReg _ _ | .shlReg _ _ | .rnd _ _ | .ldVxDt _ => []

/-- A part that is not written is the same. -/
theorem exec_part {i : Instr} {s t : State} (h : exec i s = .next t) {p : Part} (hp : p ∉ writesParts i) :
    p.same s t := by
  have hs := same_refl p s
  cases i with
  | ldImm | addImm | ldReg | orReg | andReg | xorReg | addReg | subReg | shrReg | subnReg | shlReg | rnd | ldVxDt =>
    cases h
    exact same_withRegs hs _
  | cls =>
    cases h
    exact same_setFb hs (List.ne_of_not_mem_cons hp) _
  | drw =>
    obtain ⟨cv, -, rfl⟩ := execDrw_eq_next h
    exact same_withRegs (same_setFb hs (List.ne_of_not_mem_cons hp) cv.fb) _
  | ret =>
    obtain ⟨-, e⟩ | ⟨-, e⟩ := exec_ret_cases s <;> cases e.symm.trans h
    exact same_jump (same_withStack hs (fun e => hp (by simp [e, writesParts])) _ _) (List.ne_of_not_mem_cons hp) _
  | call nnn =>
    obtain ⟨-, e⟩ | ⟨-, e⟩ := exec_call_cases nnn s <;> cases e.symm.trans h
    exact same_jump (same_withStack hs (fun e => hp (by simp [e, writesParts])) _ _) (List.ne_of_not_mem_cons hp) _
  | jp | jpV0 | seImm | sneImm | seReg | sneReg =>
    cases h
    exact same_jump hs (List.ne_of_not_mem_cons hp) _
  | skp | sknp =>
    obtain ⟨-, rfl⟩ := raise_or_next_eq_next h
    exact same_jump hs (List.ne_of_not_mem_cons hp) _
  | ldI | ldF =>
    cases h
    exact same_setI hs (List.ne_of_not_mem_cons hp) _
  | addI =>
    obtain ⟨-, rfl⟩ := raise_or_next_eq_next h
    exact same_setI hs (List.ne_of_not_mem_cons hp) _
  | loadRegs =>
    obtain ⟨-, rfl⟩ := raise_or_next_eq_next h
    exact same_setI (same_withRegs hs _) (List.ne_of_not_mem_cons hp) _
  | ldB =>
    obtain ⟨-, rfl⟩ := raise_or_next_eq_next h
    exact same_setMem hs (List.ne_of_not_mem_cons hp) _
  | storeRegs =>
    obtain ⟨-, rfl⟩ := raise_or_next_eq_next h
    exact same_setI (same_setMem hs (List.ne_of_not_mem_cons hp) _) (fun e => hp (by simp [e, writesParts])) _
  | ldDtVx =>
    cases h
    exact same_setDt hs (List.ne_of_not_mem_cons hp) _
  | ldStVx =>
    cases h
    exact same_setSt hs (List.ne_of_not_mem_cons hp) _
  | ldVxK x =>
    obtain ⟨-, k, -, e⟩ | ⟨-, -, e⟩ | ⟨-, e⟩ := exec_ldVxK_cases x s <;> cases e.symm.trans h
    · exact same_withRegs hs _
    · exact same_jump hs (List.ne_of_not_mem_cons hp) _
    · exact same_report hs (fun e => hp (by simp [e, writesParts])) _ _ _

/-- An instruction that names no destination and writes no flag changes the parts it writes and no register. -/
theorem exec_frame_noReg {i : Instr} {s t : State} (h : exec i s = .next t) (hd : ∀ r, namesDest i r = false)
    (hf : writesFlag i = false) : FrameBut noReg (writesParts i) s t :=
  ⟨fun r _ => exec_reg_of_not_written h (hd r) fun hw => absurd hw (Bool.eq_false_iff.mp hf), fun _ => exec_part h⟩

theorem writesParts_display {i : Instr} (h : .display ∈ writesParts i) : i = .cls ∨ ∃ x y n, i = .drw x y n := by
  cases i with
  | cls => exact .inl rfl
  | drw x y n => exact .inr ⟨x, y, n, rfl⟩
  | _ => simp [writesParts] at h

theorem writesParts_memory {i : Instr} (h : .memory ∈ writesParts i) :
    (∃ x, i = .ldB x) ∨ ∃ x, i = .storeRegs x := by
  cases i with
  | ldB x => exact .inl ⟨x, rfl⟩
  | storeRegs x => exact .inr ⟨x, rfl⟩
  | _ => simp [writesParts] at h

theorem writesParts_stack {i : Instr} (h : .stack ∈ writesParts i) : i = .ret ∨ ∃ nnn, i = .call nnn := by
  cases i with
  | ret => exact .inl rfl
  | call nnn => exact .inr ⟨nnn, rfl⟩
  | _ => simp [writesParts] at h

theorem writesParts_index {i : Instr} (h : .index ∈ writesParts i) : (∃ nnn, i = .ldI nnn) ∨ (∃ x, i = .addI x) ∨
    (∃ x, i = .ldF x) ∨ (∃ x, i = .storeRegs x) ∨ ∃ x, i = .loadRegs x := by
  cases i with
  | ldI nnn => exact .inl ⟨nnn, rfl⟩
  | addI x => exact .inr (.inl ⟨x, rfl⟩)
  | ldF x => exact .inr (.inr (.inl ⟨x, rfl⟩))
  | storeRegs x => exact .inr (.inr (.inr (.inl ⟨x, rfl⟩)))
  | loadRegs x => exact .inr (.inr (.inr (.inr ⟨x, rfl⟩)))
  | _ => simp [writesParts] at h

theorem writesParts_delay {i : Instr} (h : .delay ∈ writesParts i) : ∃ x, i = .ldDtVx x := by
  cases i with
  | ldDtVx x => exact ⟨x, rfl⟩
  | _ => simp [writesParts] at h

theorem writesParts_sound {i : Instr} (h : .sound ∈ writesParts i) : ∃ x, i = .ldStVx x := by
  cases i with
  | ldStVx x => exact ⟨x, rfl⟩
  | _ => simp [writesParts] at h

/-- No instruction writes the host's parts. -/
theorem writesParts_host (i : Instr) : .status ∉ writesParts i ∧ .inputs ∉ writesParts i := by
  cases i <;> simp [writesParts]

/-- A part that changed is one the instruction writes. -/
theorem mem_writesParts_of_not_same {i : Instr} {s t : State} (h : exec i s = .next t) {p : Part}
    (hp : ¬p.same s t) : p ∈ writesParts i := by
  by_contra hn
  exact hp (exec_part h hn)

/-- Settles O38: of the parts that can change, the display and memory have two writers each. -/
theorem displayAndMemoryHaveTheirOwnWriters : Obligations.DisplayAndMemoryHaveTheirOwnWriters := fun _ _ _ h =>
  ⟨fun hne => writesParts_display (mem_writesParts_of_not_same h hne),
    fun a hne => writesParts_memory (mem_writesParts_of_not_same h fun hs => hne (hs a))⟩

/-- Settles O39: likewise the stack, I and the timers. -/
theorem stackIndexAndTimersHaveTheirOwnWriters : Obligations.StackIndexAndTimersHaveTheirOwnWriters :=
  fun _ _ _ h =>
  ⟨fun hne => writesParts_stack (mem_writesParts_of_not_same h fun hs => hne.elim (· hs.1) (· hs.2)),
    fun hne => writesParts_index (mem_writesParts_of_not_same h hne),
    fun hne => writesParts_delay (mem_writesParts_of_not_same h hne),
    fun hne => writesParts_sound (mem_writesParts_of_not_same h hne)⟩

/-- Settles O41: no instruction lists the status or the inputs among the parts it writes. -/
theorem noInstructionWritesHostState : Obligations.NoInstructionWritesHostState := fun i _ _ h =>
  ⟨exec_part h (writesParts_host i).1, exec_part h (writesParts_host i).2⟩

/-! ## Faults -/

/-- A check that raises leaves the state HALTED with the record, and nothing else changed. -/
theorem raise_or_next_eq_fault {p : Prop} [Decidable p] {c : FatalCause} {insn addr : Word} {s u : State} {f : Fault}
    (h : (if p then raiseExecute c insn addr s else .next u) = .fault f) :
    f = c.fault (haltedWith c.cause .execute (s.pc - 2) insn addr s) := by
  split at h
  · cases h
    rfl
  · cases h

theorem raise_or_next_ne_refused {p : Prop} [Decidable p] {c : FatalCause} {insn addr : Word} {s u : State}
    {r : Refusal} : (if p then raiseExecute c insn addr s else .next u) ≠ .refused r := by
  split <;> nofun

/-- Settles O42: the instructions that check raise one cause, the others none. -/
theorem executeFaultLeavesOnlyTheRecord : Obligations.ExecuteFaultLeavesOnlyTheRecord := by
  intro i s f h
  cases i with
  | drw | addI | ldB | storeRegs | loadRegs | skp | sknp => exact ⟨_, _, rfl, raise_or_next_eq_fault h⟩
  | ret =>
    obtain ⟨-, e⟩ | ⟨-, e⟩ := exec_ret_cases s <;> cases e.symm.trans h
    exact ⟨.stackUnderflow, 0, rfl, rfl⟩
  | call nnn =>
    obtain ⟨-, e⟩ | ⟨-, e⟩ := exec_call_cases nnn s <;> cases e.symm.trans h
    exact ⟨.stackOverflow, 0, rfl, rfl⟩
  | ldVxK x => obtain ⟨-, k, -, e⟩ | ⟨-, -, e⟩ | ⟨-, e⟩ := exec_ldVxK_cases x s <;> cases e.symm.trans h
  | _ => cases h

/-- No instruction is without a meaning. -/
theorem exec_ne_refused (i : Instr) (s : State) (r : Refusal) : exec i s ≠ .refused r := by
  intro h
  cases i with
  | drw | addI | ldB | storeRegs | loadRegs | skp | sknp => exact raise_or_next_ne_refused h
  | ret => obtain ⟨-, e⟩ | ⟨-, e⟩ := exec_ret_cases s <;> cases e.symm.trans h
  | call nnn => obtain ⟨-, e⟩ | ⟨-, e⟩ := exec_call_cases nnn s <;> cases e.symm.trans h
  | ldVxK x => obtain ⟨-, k, -, e⟩ | ⟨-, -, e⟩ | ⟨-, e⟩ := exec_ldVxK_cases x s <;> cases e.symm.trans h
  | _ => cases h

/-! ## Inputs -/

/-- `s` with other input snapshots and another sound timer. -/
def withInputs (keys keyPrev : KeySet) (rnd b : Byte) (s : State) : State :=
  { s with keys := keys, keyPrev := keyPrev, rnd := rnd, st := b }

/-- Inputs that are not read, or are given as they were, change nothing else; ST is only ever overwritten. -/
theorem exec_withInputs {i : Instr} {s t : State} (h : exec i s = .next t) {keys keyPrev : KeySet} {rnd : Byte}
    (hkeys : readsKeys i = false ∨ keys = s.keys) (hprev : (∀ x, i ≠ .ldVxK x) ∨ keyPrev = s.keyPrev)
    (hrnd : readsRnd i = false ∨ rnd = s.rnd) (b : Byte) :
    ∃ b', (b = s.st → b' = t.st) ∧
      exec i (withInputs keys keyPrev rnd b s) = .next (withInputs keys keyPrev rnd b' t) := by
  cases i with
  | ldStVx =>
    cases h
    exact ⟨_, fun _ => rfl, rfl⟩
  | rnd =>
    obtain rfl := hrnd.resolve_left nofun
    cases h
    exact ⟨b, id, rfl⟩
  | skp | sknp =>
    obtain rfl := hkeys.resolve_left nofun
    obtain ⟨hc, rfl⟩ := raise_or_next_eq_next h
    exact ⟨b, id, if_neg hc⟩
  | drw | addI | ldB | storeRegs | loadRegs =>
    obtain ⟨hc, rfl⟩ := raise_or_next_eq_next h
    exact ⟨b, id, if_neg hc⟩
  | ret =>
    obtain ⟨hsp, e⟩ | ⟨-, e⟩ := exec_ret_cases s <;> cases e.symm.trans h
    exact ⟨b, id, exec_ret_of_pos (s := withInputs keys keyPrev rnd b s) hsp⟩
  | call nnn =>
    obtain ⟨hsp, e⟩ | ⟨-, e⟩ := exec_call_cases nnn s <;> cases e.symm.trans h
    exact ⟨b, id, exec_call_of_room (s := withInputs keys keyPrev rnd b s) hsp nnn⟩
  | ldVxK x =>
    obtain rfl := hkeys.resolve_left nofun
    obtain rfl := hprev.resolve_left fun hne => hne x rfl
    obtain ⟨hm, k, hk, e⟩ | ⟨hm, hk, e⟩ | ⟨hm, e⟩ := exec_ldVxK_cases x s <;> cases e.symm.trans h
    · exact ⟨b, id, exec_ldVxK_of_newKey (s := withInputs s.keys s.keyPrev rnd b s) hm hk x⟩
    · exact ⟨b, id, exec_ldVxK_of_noNewKey (s := withInputs s.keys s.keyPrev rnd b s) hm hk x⟩
    · exact ⟨b, id, exec_ldVxK_of_nop (s := withInputs s.keys s.keyPrev rnd b s) hm x⟩
  | _ =>
    cases h
    exact ⟨b, id, rfl⟩

/-- Settles O43: one input is replaced at a time, and the others are given as they were. -/
theorem inputsAndSoundTimerReachOnlyTheirReaders : Obligations.InputsAndSoundTimerReachOnlyTheirReaders := by
  intro i s t keys keyPrev rnd b h
  obtain ⟨hk, hp, hr, -⟩ : Part.inputs.same s t := exec_part h (writesParts_host i).2
  refine ⟨fun hn => ?keys, fun hn => ?prev, fun hn => ?rnd, ?st⟩
  case keys =>
    obtain ⟨b', hb, e⟩ := exec_withInputs h (keys := keys) (.inl hn) (.inr rfl) (.inr rfl) s.st
    rw [hp, hr, ← hb rfl]
    exact e
  case prev =>
    obtain ⟨b', hb, e⟩ := exec_withInputs h (keyPrev := keyPrev) (.inr rfl) (.inl hn) (.inr rfl) s.st
    rw [hk, hr, ← hb rfl]
    exact e
  case rnd =>
    obtain ⟨b', hb, e⟩ := exec_withInputs h (rnd := rnd) (.inr rfl) (.inr rfl) (.inl hn) s.st
    rw [hk, hp, ← hb rfl]
    exact e
  case st =>
    obtain ⟨b', -, e⟩ := exec_withInputs h (.inr rfl) (.inr rfl) (.inr rfl) b
    rw [hk, hp, hr]
    exact ⟨b', e⟩

end Sys2Proof.Machine
end

section
/-! The invariant (10_state.md R24, R27, R29, R39): one rule for each operation that writes a part of it, from these
what every instruction, every request and every step keeps, and the state a fault leaves. -/

namespace Sys2Proof.Machine

/-! ## Numbers -/

@[simp] theorem addrImm_toNat (nnn : Addr12) : (addrImm nnn).toNat = nnn.toNat :=
  BitVec.toNat_setWidth_of_le (by decide)

@[simp] theorem zextByte_toNat (b : Byte) : (zextByte b).toNat = b.toNat :=
  BitVec.toNat_setWidth_of_le (by decide)

/-- The advance of a pc that a fetch could read does not wrap. -/
theorem pc_add_two_toNat {pc : Word} (h : pc.toNat + 1 ≤ 0xFFF) : (pc + 2).toNat = pc.toNat + 2 := by
  rw [BitVec.toNat_add]
  simp
  omega

/-- Bnnn's target stays below 2^16, so that nothing wraps (41_control_flow.md R137). -/
theorem jpV0Target_toNat (nnn : Addr12) (b : Byte) : (addrImm nnn + zextByte b).toNat = nnn.toNat + b.toNat := by
  have := nnn.isLt
  have := b.isLt
  rw [BitVec.toNat_add, addrImm_toNat, zextByte_toNat]
  omega

/-- So does a glyph's address (43_index_memory.md R202). -/
theorem glyphAddr_toNat (d : Byte) : (glyphAddr d).toNat = 0x050 + 5 * d.toNat := by
  have := d.isLt
  rw [glyphAddr, BitVec.toNat_ofNat, fontBase, glyphBytes]
  omega

theorem indexMax_bounds (c : PostIncCheck) : 0xFFF ≤ indexMax c ∧ indexMax c ≤ 0x1000 := by
  cases c <;> decide

/-- The block check passes exactly where the new I is in its range (43_index_memory.md R204). -/
theorem blockFaults_eq_false {c : PostIncCheck} {base : Nat} {x : Reg} :
    blockFaults c base x = false ↔ base + x.val + 1 ≤ indexMax c := by
  cases c <;> simp only [blockFaults, indexMax, addrMax, decide_eq_false_iff_not] <;> omega

@[simp] theorem bcdDigits_length (b : Byte) : (bcdDigits b).length = 3 := rfl

/-! ## One rule for each operation -/

/-- The reset state has the invariant for every legal parameter. -/
theorem inv_resetWith {c : Config} (hc : c.legal) : (State.resetWith c).Inv where
  memory := rfl
  index := Nat.zero_le _
  pcRange := (by decide : (0x200 : Word).toNat ≤ 0x10FE)
  capacity := hc
  stackSize := List.length_replicate
  depth := Nat.zero_le _
  returns w hw := by
    rw [List.eq_of_mem_replicate hw]
    decide
  noFault _ := rfl
  faulted := nofun
  reports := nofun

section
variable {s : State} (h : s.Inv)
include h

theorem inv_withRegs (V : Vector Byte 16) : ({ s with V := V } : State).Inv := { h with }

theorem inv_setFb (fb : Vector PixelRow 32) : (setFb fb s).Inv := { h with }

theorem inv_setDt (b : Byte) : (setDt b s).Inv := { h with }

theorem inv_setSt (b : Byte) : (setSt b s).Inv := { h with }

theorem inv_sample (keys : KeySet) (rnd : Byte) : (sample keys rnd s).Inv := { h with }

theorem inv_keepKeys : (keepKeys s).Inv := { h with }

theorem inv_withAgenda (agenda : List Request) : ({ s with agenda := agenda } : State).Inv := { h with }

theorem inv_withFreeIndex (n : Nat) : ({ s with freeIndex := n } : State).Inv := { h with }

theorem inv_setMem {m : Memory} (hm : m.wf = true) : (setMem m s).Inv := { h with memory := hm }

theorem inv_setI {w : Word} (hw : w.toNat ≤ indexMax s.cfg.postInc) : (setI w s).Inv := { h with index := hw }

theorem inv_jump {w : Word} (hw : w.toNat ≤ 0x10FE) : (jump w s).Inv := { h with pcRange := hw }

theorem inv_report {c : Cause} (hc : c = .unknownOpcode ∨ c = .keyWaitUnsupported) (a insn : Word) :
    (report c a insn s).Inv := by
  refine { h with reports := fun e he => ?_ }
  obtain he | he := List.mem_append.mp he
  · exact h.reports e he
  · rw [List.mem_singleton.mp he]
    exact hc

/-- A push of a return address in range, with room for it. -/
theorem inv_pushed (hsp : s.sp < s.cfg.stackCapacity) {w : Word} (hw : w.toNat ≤ 0x1000) :
    ({ s with stack := s.stack.set s.sp w, sp := s.sp + 1 } : State).Inv := by
  refine { h with stackSize := ?_, depth := hsp, returns := fun v hv => ?_ }
  · rw [List.length_set]
    exact h.stackSize
  · obtain hv | rfl := List.mem_or_eq_of_mem_set hv
    · exact h.returns v hv
    · exact hw

theorem inv_popped : ({ s with sp := s.sp - 1 } : State).Inv :=
  { h with depth := (Nat.sub_le _ _).trans h.depth }

/-- Whatever is popped is in range. -/
theorem inv_popped_entry (hsp : 0 < s.sp) : (s.stack.getD (s.sp - 1) 0).toNat ≤ 0x1000 := by
  have hlt : s.sp - 1 < s.stack.length := by
    have := h.depth
    rw [h.stackSize]
    omega
  rw [List.getD_eq_getElem _ _ hlt]
  exact h.returns _ (List.getElem_mem hlt)

theorem inv_withRunState {r : RunState} (hr : r ≠ .halted) (hs : s.runState ≠ .halted) :
    ({ s with runState := r } : State).Inv :=
  { h with noFault := fun _ => h.noFault hs, faulted := fun e => absurd e hr }

theorem inv_haltedWith (c : FatalCause) (stage : Stage) (a insn addr : Word) :
    (haltedWith c.cause stage a insn addr s).Inv :=
  { h with noFault := fun hn => absurd rfl hn, faulted := fun _ => ⟨c, rfl⟩ }

/-! ## Execute -/

/-- A skip moves pc by 2 at most. -/
theorem inv_skipIf (hpc : s.pc.toNat ≤ 0x1000) (c : Bool) : (skipIf c s).Inv := by
  apply inv_jump h
  split
  · rw [BitVec.toNat_add]
    simp
    omega
  · omega

/-- With pc where a fetch has left it, an instruction that completes keeps the invariant. -/
theorem exec_inv (hlow : 2 ≤ s.pc.toNat) (hpc : s.pc.toNat ≤ 0x1000) {i : Instr} {t : State}
    (hx : exec i s = .next t) : t.Inv := by
  have hmax := indexMax_bounds s.cfg.postInc
  cases i with
  | ldImm | addImm | ldReg | orReg | andReg | xorReg | addReg | subReg | shrReg | subnReg | shlReg | rnd | ldVxDt =>
    cases hx
    exact inv_withRegs h _
  | cls =>
    cases hx
    exact inv_setFb h _
  | drw =>
    obtain ⟨cv, -, rfl⟩ := execDrw_eq_next hx
    exact inv_withRegs (inv_setFb h cv.fb) _
  | ret =>
    obtain ⟨hsp, e⟩ | ⟨-, e⟩ := exec_ret_cases s <;> cases e.symm.trans hx
    exact inv_jump (inv_popped h) ((inv_popped_entry h hsp).trans (by decide))
  | call nnn =>
    obtain ⟨hsp, e⟩ | ⟨-, e⟩ := exec_call_cases nnn s <;> cases e.symm.trans hx
    have := nnn.isLt
    exact inv_jump (inv_pushed h hsp hpc) (by rw [addrImm_toNat]; omega)
  | jp nnn =>
    cases hx
    have := nnn.isLt
    exact inv_jump h (by rw [addrImm_toNat]; omega)
  | jpV0 nnn =>
    cases hx
    have := nnn.isLt
    have := (s.reg 0).isLt
    exact inv_jump h (by rw [jpV0Target_toNat]; omega)
  | seImm | sneImm | seReg | sneReg =>
    cases hx
    exact inv_skipIf h hpc _
  | skp | sknp =>
    obtain ⟨-, rfl⟩ := raise_or_next_eq_next hx
    exact inv_skipIf h hpc _
  | ldI nnn =>
    cases hx
    have := nnn.isLt
    exact inv_setI h (by rw [addrImm_toNat]; omega)
  | ldF x =>
    cases hx
    have := (s.reg x).isLt
    exact inv_setI h (by rw [glyphAddr_toNat]; omega)
  | addI =>
    obtain ⟨hr : ¬_ > 0xFFF, rfl⟩ := raise_or_next_eq_next hx
    exact inv_setI h (by rw [BitVec.toNat_ofNat]; omega)
  | ldB =>
    obtain ⟨hr : ¬_ > 0xFFF, rfl⟩ := raise_or_next_eq_next hx
    exact inv_setMem h (writeList_wf _ _ h.memory (by rw [bcdDigits_length]; omega))
  | storeRegs =>
    obtain ⟨hr, rfl⟩ := raise_or_next_eq_next hx
    have hr := blockFaults_eq_false.mp (Bool.eq_false_of_not_eq_true hr)
    refine inv_setI (inv_setMem h (writeList_wf _ _ h.memory ?_)) ?_
    · rw [regsUpTo_length]
      omega
    · rw [BitVec.toNat_ofNat]
      exact (Nat.mod_le _ _).trans hr
  | loadRegs =>
    obtain ⟨hr, rfl⟩ := raise_or_next_eq_next hx
    have hr := blockFaults_eq_false.mp (Bool.eq_false_of_not_eq_true hr)
    refine inv_setI (inv_withRegs h _) ?_
    rw [BitVec.toNat_ofNat]
    exact (Nat.mod_le _ _).trans hr
  | ldDtVx =>
    cases hx
    exact inv_setDt h _
  | ldStVx =>
    cases hx
    exact inv_setSt h _
  | ldVxK x =>
    obtain ⟨-, k, -, e⟩ | ⟨-, -, e⟩ | ⟨-, e⟩ := exec_ldVxK_cases x s <;> cases e.symm.trans hx
    · exact inv_withRegs h _
    · refine inv_jump h ?_
      rw [insnAddr, BitVec.toNat_sub]
      simp
      omega
    · exact inv_report h (.inr rfl) _ _

/-! ## The cycle -/

/-- The state Execute starts from, after a fetch in range: the invariant, with pc moved on. -/
theorem inv_advance_sample (hpc : s.pc.toNat + 1 ≤ 0xFFF) (keys : KeySet) (rnd : Byte) :
    (advance (sample keys rnd s)).Inv ∧ (advance (sample keys rnd s)).pc.toNat = s.pc.toNat + 2 := by
  have hto := pc_add_two_toNat hpc
  exact ⟨inv_jump (inv_sample h keys rnd) (by rw [sample_pc, hto]; omega), hto⟩

theorem cycle_inv {keys : KeySet} {rnd : Byte} {t : State} (ht : cycle keys rnd s = .next t) : t.Inv := by
  obtain ⟨hpc, ⟨i, u, -, hu, rfl⟩ | ⟨e, -, rfl⟩⟩ := cycle_eq_next ht
  · obtain ⟨hinv, hto⟩ := inv_advance_sample h hpc keys rnd
    exact inv_keepKeys (exec_inv hinv (by omega) (by omega) hu)
  · exact inv_keepKeys (inv_report (inv_advance_sample h hpc keys rnd).1 (.inl rfl) _ _)

theorem cycle_fault_inv {keys : KeySet} {rnd : Byte} {f : Fault} (hf : cycle keys rnd s = .fault f) :
    f.halted.Inv ∧ f.halted.runState = .halted := by
  obtain ⟨-, rfl⟩ | ⟨hpc, i, -, hx⟩ := cycle_eq_fault hf
  · exact ⟨inv_haltedWith (inv_sample h keys rnd) .memoryFault _ _ _ _, rfl⟩
  · obtain ⟨c, addr, -, rfl⟩ := executeFaultLeavesOnlyTheRecord _ _ _ hx
    rw [FatalCause.fault_halted]
    exact ⟨inv_haltedWith (inv_advance_sample h hpc keys rnd).1 c _ _ _ _, rfl⟩

/-! ## Requests -/

theorem inv_timerTick : (timerTick s).Inv := by
  unfold timerTick
  split
  · exact { h with }
  · exact h

theorem inv_latchCancel : (latchCancel s).Inv := by
  unfold latchCancel
  split
  · exact { h with }
  · exact h

theorem inv_startRun : (startRun s).Inv := by
  unfold startRun
  split
  · next hr => exact inv_withRunState h nofun (by rw [hr]; nofun)
  · exact h

theorem inv_loadByte (a : Addr12) (b : Byte) : (loadByte a b s).Inv := by
  unfold loadByte
  split
  · exact inv_setMem h (write_wf h.memory (by have := a.isLt; omega) b)
  · exact h

/-- A reset keeps a legal parameter and the history; everything else has its reset value. -/
theorem inv_rstState : (rstState s).Inv := { inv_resetWith h.capacity with reports := h.reports }

theorem deliver_inv {r : Request} {t : State} (ht : deliver r s = .next t) : t.Inv := by
  cases r with
  | step keys rnd =>
    rw [deliver] at ht
    split at ht
    · exact cycle_inv h ht
    · cases ht
      exact h
  | tick => cases ht; exact inv_timerTick h
  | cancel => cases ht; exact inv_latchCancel h
  | start => cases ht; exact inv_startRun h
  | rst => cases ht; exact inv_rstState h
  | load a b => cases ht; exact inv_loadByte h a b

end

/-! ## The step -/

/-- A cancellation is due in a RUNNING core only, with a request latched (60_exceptions.md R280). -/
theorem cancelDue_eq_true {s : State} (h : cancelDue s = true) : s.runState = .running ∧ s.cancelLatch = true := by
  simp only [cancelDue, Bool.and_eq_true, beq_iff_eq] at h
  exact h.1

/-- A request that faults is a cycle in a RUNNING core. -/
theorem deliver_eq_fault {r : Request} {s : State} {f : Fault} (h : deliver r s = .fault f) :
    s.runState = .running ∧ ∃ keys rnd, r = .step keys rnd ∧ cycle keys rnd s = .fault f := by
  cases r with
  | step keys rnd =>
    rw [deliver] at h
    split at h
    · next hr => exact ⟨hr, keys, rnd, rfl, h⟩
    · cases h
  | _ => cases h

/-- Settles O57: a cancellation, a request and a cycle each keep it. -/
theorem everyStepKeepsTheInvariant : Obligations.EveryStepKeepsTheInvariant := by
  intro s t h ht
  obtain ⟨hc, e⟩ | ⟨-, r, rest, -, e⟩ | ⟨-, -, -, -, e⟩ | ⟨-, -, -, e⟩ := step_cases s <;> rw [e] at ht
  · cases ht
    exact inv_withRunState h nofun (by rw [(cancelDue_eq_true hc).1]; nofun)
  · exact deliver_inv (inv_withAgenda h rest) ht
  · exact cycle_inv (inv_withFreeIndex (inv_withAgenda h []) _) ht
  · cases ht
    exact h

/-- Settles O58: only a cycle faults. -/
theorem everyFaultKeepsTheInvariant : Obligations.EveryFaultKeepsTheInvariant := by
  intro s f h hf
  obtain ⟨-, e⟩ | ⟨-, r, rest, -, e⟩ | ⟨-, -, -, -, e⟩ | ⟨-, -, -, e⟩ := step_cases s <;> rw [e] at hf
  · cases hf
  · obtain ⟨-, keys, rnd, -, hx⟩ := deliver_eq_fault hf
    exact cycle_fault_inv (inv_withAgenda h rest) hx
  · exact cycle_fault_inv (inv_withFreeIndex (inv_withAgenda h []) _) hf
  · cases hf

theorem launchMemory_wf (font : Vector Byte 80) (program : List Byte) : (launchMemory font program).wf = true := by
  have hp : (program.take programCapacity).length ≤ 3584 := List.length_take_le _ _
  have hf : font.toList.length = 80 := by simp
  refine writeList_wf _ _ (writeList_wf _ _ empty_wf ?_) ?_
  · rw [hf]
    decide
  · rw [programBase]
    omega

/-- Settles O56: launch is the reset state with canonical memory, RUNNING. -/
theorem invariantHoldsAtResetAndLaunch : Obligations.InvariantHoldsAtResetAndLaunch := by
  have hreset : State.reset.Inv := inv_resetWith (by decide)
  exact ⟨hreset, fun font program =>
    inv_withRunState (inv_setMem hreset (launchMemory_wf font program)) nofun nofun⟩

end Sys2Proof.Machine
end

section
/-! The single instructions (42_alu.md R169 to R190; 43_index_memory.md; 41_control_flow.md; 44_timers_input.md): the
frame of each is the one of all instructions, so that what is left is what it writes and when it faults. -/

namespace Sys2Proof.Machine

/-! ## Shifts and the random byte -/

theorem flagByte_bitOutRight_toNat (b : Byte) : (flagByte (bitOutRight b)).toNat = b.toNat % 2 := by
  rw [flagByte_toNat, bitOutRight, BitVec.getLsbD, Nat.testBit_zero]
  simp only [decide_eq_true_eq]
  split <;> omega

theorem flagByte_bitOutLeft_toNat (b : Byte) : (flagByte (bitOutLeft b)).toNat = b.toNat / 128 := by
  have := b.isLt
  rw [flagByte_toNat, bitOutLeft, BitVec.getLsbD, Nat.testBit_eq_decide_div_mod_eq]
  simp only [decide_eq_true_eq]
  split <;> omega

/-- Settles O16: a shift by one is a division or a multiplication by 2, and the flag is the bit lost. -/
theorem shiftsMoveVyAndFlagTheLostBit : Obligations.ShiftsMoveVyAndFlagTheLostBit := by
  intro s x y
  refine ⟨⟨_, rfl, fun hx => ?_, ?_, frameBut_setResultAndFlag x _ _ s⟩,
    ⟨_, rfl, fun hx => ?_, ?_, frameBut_setResultAndFlag x _ _ s⟩⟩
  · rw [setResultAndFlag_reg_dest hx, BitVec.toNat_ushiftRight, Nat.shiftRight_eq_div_pow, Nat.pow_one]
  · rw [setResultAndFlag_reg_VF, flagByte_bitOutRight_toNat]
  · rw [setResultAndFlag_reg_dest hx, BitVec.toNat_shiftLeft, Nat.shiftLeft_eq, Nat.pow_one, Nat.mul_comm]
  · rw [setResultAndFlag_reg_VF, flagByte_bitOutLeft_toNat]

/-- Settles O17: the byte written is the sampled byte AND kk. -/
theorem randomIsMaskedByTheImmediate : Obligations.RandomIsMaskedByTheImmediate := by
  intro s x kk
  refine ⟨_, rfl, frameBut_setReg_self x _ s, fun k => ?_, ?_⟩
  · rw [setReg_reg_self, BitVec.getLsbD_and]
  · rw [setReg_reg_self, BitVec.and_assoc, BitVec.and_not_self]
    exact BitVec.and_zero

/-! ## The index register -/

/-- Settles O18: neither address wraps in 16 bits. -/
theorem indexLoadsSetI : Obligations.IndexLoadsSetI := fun s nnn x =>
  ⟨⟨_, rfl, addrImm_toNat nnn, exec_frame_noReg (i := .ldI nnn) rfl (fun _ => rfl) rfl⟩,
    ⟨_, rfl, glyphAddr_toNat (s.reg x), exec_frame_noReg (i := .ldF x) rfl (fun _ => rfl) rfl⟩⟩

/-- Settles O19: the sum is checked before it is written, and is below 2^16 either way. -/
theorem addToIndexIsRangeChecked : Obligations.AddToIndexIsRangeChecked := by
  intro s x
  have hx := (s.reg x).isLt
  refine ⟨fun hle => ?_, fun hI hgt => ?_⟩
  · have hexec : exec (.addI x) s = .next (setI (BitVec.ofNat 16 (s.I.toNat + (s.reg x).toNat)) s) :=
      if_neg (Nat.not_lt.mpr hle)
    refine ⟨_, hexec, ?_, exec_frame_noReg hexec (fun _ => rfl) rfl⟩
    rw [setI_I, BitVec.toNat_ofNat, Nat.mod_eq_of_lt (by omega)]
  · refine ⟨BitVec.ofNat 16 (s.I.toNat + (s.reg x).toNat), if_pos hgt, ?_⟩
    rw [BitVec.toNat_ofNat, Nat.mod_eq_of_lt (by omega)]

/-! ## Memory -/

/-- Settles O20: the three bytes written are the digits, and the range is checked first. -/
theorem bcdStoresThreeDigits : Obligations.BcdStoresThreeDigits := by
  intro s x hw
  refine ⟨Laws.packXKK_fixed 0xF x 0x33, fun hle => ?_, fun hgt => if_pos hgt⟩
  have hv := (s.reg x).isLt
  have hexec : exec (.ldB x) s = .next (setMem (s.mem.writeList s.I.toNat (bcdDigits (s.reg x))) s) :=
    if_neg (Nat.not_lt.mpr hle)
  have digit (k : Nat) (hk : k < 3) :
      (s.mem.writeList s.I.toNat (bcdDigits (s.reg x))).read (s.I.toNat + k) = (bcdDigits (s.reg x))[k] :=
    read_writeList (bcdDigits (s.reg x)) _ k hw (by rw [bcdDigits_length]; omega) hk
  refine ⟨_, (s.reg x).toNat / 100, (s.reg x).toNat / 10 % 10, (s.reg x).toNat % 10, hexec, by omega, by omega,
    by omega, by omega, ?hundreds, ?tens, ?units, fun a ha => ?_, exec_frame_noReg hexec (fun _ => rfl) rfl⟩
  case hundreds =>
    refine (congrArg BitVec.toNat (digit 0 (by decide))).trans ?_
    exact Nat.mod_eq_of_lt (by omega)
  case tens =>
    refine (congrArg BitVec.toNat (digit 1 (by decide))).trans ?_
    exact Nat.mod_eq_of_lt (by omega)
  case units =>
    refine (congrArg BitVec.toNat (digit 2 (by decide))).trans ?_
    exact Nat.mod_eq_of_lt (by omega)
  · exact read_writeList_outside _ _ _ (by rw [bcdDigits_length]; omega)

/-- The range of the statements is the range of the check, and of I (43_index_memory.md R204). -/
theorem blockInRange_iff {s : State} {x : Reg} :
    blockInRange s x ↔ s.I.toNat + x.val + 1 ≤ indexMax s.cfg.postInc := by
  cases h : s.cfg.postInc <;> simp [blockInRange, h, indexMax, Nat.lt_succ_iff]

theorem blockFaults_of_inRange {s : State} {x : Reg} (h : blockInRange s x) :
    ¬blockFaults s.cfg.postInc s.I.toNat x = true :=
  Bool.eq_false_iff.mp (blockFaults_eq_false.mpr (blockInRange_iff.mp h))

theorem blockFaults_of_not_inRange {s : State} {x : Reg} (h : ¬blockInRange s x) :
    blockFaults s.cfg.postInc s.I.toNat x = true := by
  by_contra hn
  exact h (blockInRange_iff.mpr (blockFaults_eq_false.mp (Bool.eq_false_of_not_eq_true hn)))

/-- A block in range ends at 0xFFF at the latest. -/
theorem block_end {s : State} {x : Reg} (h : blockInRange s x) : s.I.toNat + x.val + 1 ≤ 0x1000 :=
  (blockInRange_iff.mp h).trans (indexMax_bounds _).2

theorem setI_pastBlock_toNat {s : State} {x : Reg} (h : blockInRange s x) (t : State) :
    (setI (BitVec.ofNat 16 (s.I.toNat + x.val + 1)) t).I.toNat = s.I.toNat + x.val + 1 := by
  have := block_end h
  rw [setI_I, BitVec.toNat_ofNat, Nat.mod_eq_of_lt (by omega)]

/-- Settles O21: the bytes written are V0 to Vx. -/
theorem storeWritesTheRegisterBlock : Obligations.StoreWritesTheRegisterBlock := by
  intro s x hw h
  have hend := block_end h
  have hexec : exec (.storeRegs x) s = .next (setI (BitVec.ofNat 16 (s.I.toNat + x.val + 1))
      (setMem (s.mem.writeList s.I.toNat (regsUpTo s.V x)) s)) := if_neg (blockFaults_of_inRange h)
  refine ⟨_, hexec, setI_pastBlock_toNat h _, fun r hr => ?_, fun a ha => ?_,
    exec_frame_noReg hexec (fun _ => rfl) rfl⟩
  · have hlt : r.val < (regsUpTo s.V x).length := by
      rw [regsUpTo_length]
      exact Nat.lt_succ_of_le hr
    rw [setI_mem, setMem_mem, read_writeList _ _ _ hw (by rw [regsUpTo_length]; omega) hlt]
    exact regsUpTo_getElem s.V x r.val hlt r.isLt
  · exact read_writeList_outside _ _ _ (by rw [regsUpTo_length]; omega)

/-- Settles O22: the registers filled are V0 to Vx. -/
theorem loadReadsTheRegisterBlock : Obligations.LoadReadsTheRegisterBlock := by
  intro s x h
  have hexec : exec (.loadRegs x) s = .next (setI (BitVec.ofNat 16 (s.I.toNat + x.val + 1))
      { s with V := fillRegs s.V 0 (s.mem.readList s.I.toNat (x.val + 1)) }) := if_neg (blockFaults_of_inRange h)
  refine ⟨_, hexec, setI_pastBlock_toNat h _, fun r hr => ?_, fun r hr => ?_, fun _ => exec_part hexec⟩
  · have hin : 0 ≤ r.val ∧ r.val - 0 < (s.mem.readList s.I.toNat (x.val + 1)).length := by
      rw [readList_length]
      exact ⟨Nat.zero_le _, Nat.lt_succ_of_le hr⟩
    exact (fillRegs_getElem _ s.V 0 r.val r.isLt).trans ((dif_pos hin).trans (readList_getElem _ _ _ _ _))
  · exact execLoadRegs_reg_of_gt hexec (not_le.mp hr)

/-- Settles O23: out of range is where the check raises. -/
theorem blockOutOfRangeFaults : Obligations.BlockOutOfRangeFaults := fun _ _ h =>
  ⟨if_pos (blockFaults_of_not_inRange h), if_pos (blockFaults_of_not_inRange h)⟩

/-- Settles O24: pc is not written, and the two bytes at pc are bytes of the block. -/
theorem fetchSeesAnEarlierStore : Obligations.FetchSeesAnEarlierStore := by
  intro s x j k hw h hj hk hpc hnext
  obtain ⟨t, hexec, -, hbytes, -, -, hparts⟩ := storeWritesTheRegisterBlock s x hw h
  have htpc : t.pc = s.pc := hparts .pc (by simp)
  refine ⟨t, hexec, htpc, ?_⟩
  rw [fetchWord, htpc, hpc, hbytes j hj, Nat.add_assoc, ← hnext, hbytes k hk]

/-! ## Display -/

/-- Settles O27: the range is checked before the first effect, and 0x1000 is its lowest address outside. -/
theorem drawOutOfRangeFaults : Obligations.DrawOutOfRangeFaults := by
  intro s x y n hI hn hgt
  have hout : lowestOutside s.I.toNat = 0x1000 := by
    unfold lowestOutside addrMax
    split <;> omega
  have hexec : exec (.drw x y n) s = raiseExecute .memoryFault (encode (.drw x y n))
      (BitVec.ofNat 16 (lowestOutside s.I.toNat)) s := if_pos (rangeFaults_eq_true.mpr ⟨hn, hgt⟩)
  rw [hexec, hout]
  rfl

/-- Two framebuffers are one where every pixel is. -/
theorem framebuffer_ext {f g : Vector PixelRow 32}
    (h : ∀ row col, row < 32 → col < 64 → pixel f row col = pixel g row col) : f = g := by
  apply Vector.ext
  intro row hrow
  apply BitVec.eq_of_getLsbD_eq
  intro col hcol
  have hp := h row col hrow hcol
  rwa [pixel, pixel, dif_pos hrow, dif_pos hrow] at hp

/-- The sprite's cover looks at memory through its read. -/
theorem spriteCovers_congr {m m' : Memory} (h : ∀ a, m'.read a = m.read a) (base n X Y row col : Nat) :
    spriteCovers m' base n X Y row col = spriteCovers m base n X Y row col := by
  rw [spriteCovers, spriteCovers, h]

/-- Settles O28: the second draw XORs the same sprite once more, and collides wherever the first lit a pixel. -/
theorem drawingTwiceRestoresTheDisplay : Obligations.DrawingTwiceRestoresTheDisplay := by
  intro s x y n hx hy hrange hclear
  obtain ⟨t, ht, hpix, hVF, h01, hregs, hparts⟩ := drawXorsTheClippedSprite s x y n hrange
  have hI : t.I = s.I := hparts .index (by simp)
  have hmem : ∀ a, t.mem.read a = s.mem.read a := hparts .memory (by simp)
  obtain ⟨u, hu, hpix', hVF', -, -⟩ := drawXorsTheClippedSprite t x y n (hI ▸ hrange)
  simp only [hI, hregs x hx, hregs y hy, spriteCovers_congr hmem, drawCollidesAt] at hpix' hVF'
  refine ⟨t, u, ht, hu, framebuffer_ext fun row col hr hc => ?_, h01.resolve_right fun h1 => ?_, hVF'.trans ?_⟩
  · rw [hpix' row col hr hc, hpix row col hr hc, Bool.xor_assoc, Bool.xor_self, Bool.xor_false]
  · obtain ⟨row, col, hr, hc, hlit, -⟩ := hVF.mp h1
    rw [hclear row col hr hc] at hlit
    cases hlit
  · refine exists₂_congr fun row col => and_congr_right fun hr => and_congr_right fun hc => ?_
    rw [hpix row col hr hc, hclear row col hr hc, Bool.false_xor, and_self]

/-! ## Control flow -/

/-- Settles O29: neither target wraps in 16 bits. -/
theorem jumpsSetPc : Obligations.JumpsSetPc := fun s nnn =>
  ⟨⟨_, rfl, addrImm_toNat nnn, frameBut_jump noReg _ s⟩,
    ⟨_, rfl, jpV0Target_toNat nnn (s.reg 0), frameBut_jump noReg _ s⟩⟩

/-- Settles O30: a push writes the entry at SP, and a full stack is found before it. -/
theorem callPushesTheAdvancedPc : Obligations.CallPushesTheAdvancedPc := by
  intro s nnn hsize
  refine ⟨fun hroom => ?_, fun hfull => exec_call_of_full hfull.ge nnn⟩
  have hexec := exec_call_of_room hroom nnn
  exact ⟨_, hexec, addrImm_toNat nnn, rfl, List.getElem?_set_self (hsize ▸ hroom),
    fun k hk => List.getElem?_set_ne hk.symm, exec_frame_noReg hexec (fun _ => rfl) rfl⟩

/-- Settles O31: a pop reads the entry below SP, and an empty stack is found before it. -/
theorem returnPopsIntoPc : Obligations.ReturnPopsIntoPc := by
  intro s hsize hdepth
  refine ⟨fun hpos => ?_, fun hempty => exec_ret_of_empty hempty⟩
  have hexec := exec_ret_of_pos hpos
  have hlt : s.sp - 1 < s.stack.length := by omega
  refine ⟨_, hexec, ?_, Nat.sub_add_cancel hpos, rfl, exec_frame_noReg hexec (fun _ => rfl) rfl⟩
  rw [jump_pc, List.getD_eq_getElem _ _ hlt, List.getElem?_eq_getElem hlt]

/-- Settles O32: the entry below the SP after the call is the one the call wrote. -/
theorem returnAfterCallContinuesAfterTheCall : Obligations.ReturnAfterCallContinuesAfterTheCall := by
  intro s nnn hsize hroom
  obtain ⟨t, ht, -, hsp, hentry, -, -⟩ := (callPushesTheAdvancedPc s nnn hsize).1 hroom
  refine ⟨t, ht, fun t' hsp' hentry' => ?_⟩
  have htop : t'.sp - 1 = s.sp := by omega
  refine ⟨_, exec_ret_of_pos (by omega), ?_, htop⟩
  rw [jump_pc, htop, List.getD_eq_getElem?_getD, hentry', hentry, Option.getD_some]

/-! ## Timers and keys -/

/-- Settles O34: each is one write, and sound is ST compared with 0. -/
theorem timerLoadsSetTheTimers : Obligations.TimerLoadsSetTheTimers := fun _ x =>
  ⟨⟨_, rfl, rfl, exec_frame_noReg (i := .ldDtVx x) rfl (fun _ => rfl) rfl⟩,
    ⟨_, rfl, rfl, bne_iff_ne, exec_frame_noReg (i := .ldStVx x) rfl (fun _ => rfl) rfl⟩⟩

/-- Settles O35: with an index that exists each is a skip on its key. -/
theorem keySkipsTestTheSnapshot : Obligations.KeySkipsTestTheSnapshot := by
  intro s x hx
  have hok : ¬keyIndexFaults (s.reg x) = true := by simpa [keyIndexFaults] using hx
  exact ⟨exec_skip (if_neg hok) id id, exec_skip (if_neg hok) (Bool.not_eq_true' _).mpr (Bool.not_eq_false' _).mpr⟩

/-- Settles O36: the fault's address is the index. -/
theorem keyIndexAboveFifteenFaults : Obligations.KeyIndexAboveFifteenFaults := by
  intro s x hx
  have hbad : keyIndexFaults (s.reg x) = true := decide_eq_true hx
  exact ⟨zextByte (s.reg x), zextByte_toNat _, if_pos hbad, if_pos hbad⟩

/-- A key is newly pressed when its bit is 1 now and was 0 before (44_timers_input.md R247). -/
theorem keyDown_newlyPressed_iff {keys keyPrev : KeySet} {k : Nat} (hk : k < 16) :
    keyDown (newlyPressed keys keyPrev) k = true ↔ keys.getLsbD k = true ∧ keyPrev.getLsbD k = false := by
  rw [keyDown_newlyPressed hk, Bool.and_eq_true, Bool.not_eq_true', keyDown, keyDown]

/-- Reporting changes the events and nothing else. -/
theorem frameBut_report (W : Reg → Prop) (c : Cause) (a insn : Word) (s : State) :
    FrameBut W [.events] s (report c a insn s) :=
  ⟨fun r _ => report_reg c a insn s r, fun p hp => same_report (same_refl p s) (List.ne_of_not_mem_cons hp) c a insn⟩

/-- Settles O37: the wait ends with the lowest new key, and without one pc goes back. -/
theorem keyWaitSuspendsOrIsReported : Obligations.KeyWaitSuspendsOrIsReported := by
  intro s x
  refine ⟨fun hm ⟨k, hk, hnew⟩ => ?pressed, fun hm hnone => ?stalled, fun hm => ?reported⟩
  case pressed =>
    cases hl : lowestNewKey s.keys s.keyPrev with
    | none =>
      have hup := lowestNewKey_eq_none.mp hl k hk
      rw [(keyDown_newlyPressed_iff hk).mpr hnew] at hup
      cases hup
    | some j =>
      obtain ⟨hj, hdown, hlow⟩ := lowestNewKey_eq_some hl
      obtain ⟨hjkey, hjprev⟩ := (keyDown_newlyPressed_iff hj).mp hdown
      refine ⟨_, j, exec_ldVxK_of_newKey hm hl x, hj, hjkey, hjprev, fun l hl hnew => ?_, ?_,
        frameBut_setReg_self x _ s⟩
      · have hup := hlow l hl
        rw [(keyDown_newlyPressed_iff (hl.trans hj)).mpr hnew] at hup
        cases hup
      · rw [setReg_reg_self, BitVec.toNat_ofNat, Nat.mod_eq_of_lt (by omega)]
  case stalled =>
    have hl : lowestNewKey s.keys s.keyPrev = none := by
      refine lowestNewKey_eq_none.mpr fun k hk => Bool.eq_false_of_not_eq_true fun hdown => ?_
      obtain ⟨hkey, hprev⟩ := (keyDown_newlyPressed_iff hk).mp hdown
      rw [hnone k hk hkey] at hprev
      cases hprev
    exact ⟨_, exec_ldVxK_of_noNewKey hm hl x, rfl, frameBut_jump noReg _ s⟩
  case reported => exact ⟨_, exec_ldVxK_of_nop hm x, rfl, rfl, frameBut_report noReg _ _ _ s⟩

end Sys2Proof.Machine
end

section
/-! The step (30_encoding.md, section 1; 44_timers_input.md, section 3; 60_exceptions.md, section 5;
70_reset_and_hazards.md): a cycle requested, a fetch that faults, ticks, cancellation, reset and loading, and how a run
ends. -/

namespace Sys2Proof.Machine

/-! ## Cycles -/

/-- A `step` request in a RUNNING core is one cycle. -/
theorem step_of_stepRequest {s : State} {keys : KeySet} {rnd : Byte} {rest : List Request}
    (hr : s.runState = .running) (h : s.NextRequest (.step keys rnd) rest) :
    step s = cycle keys rnd { s with agenda := rest } := by
  rw [step_of_request h.1 h.2]
  exact deliver_step (s := { s with agenda := rest }) hr keys rnd

/-- Settles O7: either form of the request is one cycle, and a cycle runs the word at pc. -/
theorem stepRunsTheDecodedInstruction : Obligations.StepRunsTheDecodedInstruction := by
  refine ⟨fun s keys rnd rest i hr h hpc hd => ?_, fun s i hr hlatch ha hheld hpc hd => ?_, fun _ => rfl, fun _ => rfl⟩
  · rw [step_of_stepRequest hr h]
    exact cycle_of_decode (s := { s with agenda := rest }) hpc hd keys rnd
  · rw [step_of_held ha hheld hr (cancelDue_of_latch hlatch)]
    exact cycle_of_decode (s := { s with freeIndex := s.freeIndex + 1 }) hpc hd _ _

/-- Settles O8: a word of no row is rejected, and the cycle of a rejected word is a report. -/
theorem stepReportsAnUnknownWord : Obligations.StepReportsAnUnknownWord := by
  rintro s keys rnd rest w hr h hpc rfl hno
  have hstep := (step_of_stepRequest hr h).trans
    (cycle_of_reject (s := { s with agenda := rest }) hpc (decode_of_no_match hno) keys rnd)
  rw [insnAddr_advance] at hstep
  refine ⟨_, hstep, pc_add_two_toNat hpc, rfl, rfl, rfl, rfl, rfl, rfl, rfl, fun _ _ => rfl, fun p hp => ?_⟩
  cases p with
  | pc | events | inputs => simp at hp
  | _ => simp [Part.same]

/-- The lower of the two fetch addresses that lies outside (30_encoding.md R80). -/
theorem fetchFaultAddr_toNat {pc : Word} (h : pc.toNat + 1 > 0xFFF) :
    (fetchFaultAddr pc).toNat = (if pc.toNat > 0xFFF then pc.toNat else pc.toNat + 1) := by
  rw [fetchFaultAddr, addrMax]
  split
  · rfl
  · rw [BitVec.toNat_add]
    simp
    omega

/-- Settles O9: the fault is the fetch's, before the advance. -/
theorem fetchOutsideMemoryFaults : Obligations.FetchOutsideMemoryFaults := by
  intro s keys rnd rest hr h hpc
  have hstep := (step_of_stepRequest hr h).trans
    (cycle_of_fetchFault (s := { s with agenda := rest }) hpc keys rnd)
  exact ⟨_, hstep, rfl, fetchFaultAddr_toNat hpc⟩

/-- Where a fetch from pc can read, the word is placed there and pc stays. -/
theorem placeWord_pc {s : State} (h : s.pc.toNat + 1 ≤ 0xFFF) (w : Word) : (placeWord w s).pc = s.pc := by
  apply BitVec.eq_of_toNat_eq
  rw [placeWord_pc_toNat, placeAddr, if_neg (Bool.eq_false_iff.mp (fetchFaults_eq_false.mpr h))]

/-- A RUNNING core with `step` held and nothing before it runs the word it fetches, on free inputs. -/
theorem step_of_held_word {t : State} (hr : t.runState = .running) (hlatch : t.cancelLatch = false)
    (ha : t.agenda = []) (hheld : t.stepHeld = true) (hpc : t.pc.toNat + 1 ≤ 0xFFF) :
    step t = finishCycle (execute (fetchWord t)
      { t with freeIndex := t.freeIndex + 1, keys := Config.freeKeys t.freeIndex,
               rnd := Config.freeRnd t.freeIndex, pc := t.pc + 2 }) := by
  rw [step_of_held ha hheld hr (cancelDue_of_latch hlatch)]
  exact cycle_of_fetch (s := { t with freeIndex := t.freeIndex + 1 }) hpc _ _

/-- Settles O10: the placed core runs, with `step` held and nothing queued. -/
theorem placedWordIsTheNextToRun : Obligations.PlacedWordIsTheNextToRun := by
  intro s w hw
  have hbound := placeAddr_bound s
  have hfetch := fetchWord_placeWord w hw
  have hpc : (placeWord w s).pc.toNat + 1 ≤ 0xFFF := by rwa [placeWord_pc_toNat]
  refine ⟨placeWord w s, by rw [State.withFetchWord, tableWord_toNat], hfetch,
    writeList_wf _ _ hw (by rw [bytesOfWord_length]; omega), ?_, fun h => placeWord_pc h w, fun a ha ha' => ?_,
    fun _ _ => rfl, fun p hp => ?_⟩
  · rw [step_of_held_word rfl rfl rfl rfl hpc, hfetch]
  · rw [placeWord_pc_toNat] at ha ha'
    exact read_writeList_outside _ _ _ (by rw [bytesOfWord_length]; omega)
  · cases p with
    | pc | memory | status | inputs => simp at hp
    | _ => simp [Part.same, placeWord]

/-- The word that jumps to `pc` is that jump's encoding, for a pc of 12 bits. -/
theorem selfJump_encode {pc : Word} (h : pc.toNat + 1 ≤ 0xFFF) :
    0x1000 + pc = encode (.jp (pc.setWidth 12)) ∧ addrImm (pc.setWidth 12) = pc := by
  have hnnn : (pc.setWidth 12).toNat = pc.toNat := by
    rw [BitVec.toNat_setWidth, Nat.mod_eq_of_lt (by omega)]
  constructor <;> apply BitVec.eq_of_toNat_eq
  · rw [encode, packNNN_toNat, hnnn, BitVec.toNat_add]
    simp
    omega
  · rw [addrImm_toNat, hnnn]

theorem fetchWord_congr {s t : State} (hmem : t.mem = s.mem) (hpc : t.pc = s.pc) : fetchWord t = fetchWord s := by
  rw [fetchWord, hmem, hpc, fetchWord]

/-- Settles O55: the cycle of a self-jump puts pc back and touches nothing that the spinning speaks of. -/
theorem spinningCoreKeepsSpinning : Obligations.SpinningCoreKeepsSpinning := by
  intro s keys rnd rest ⟨hr, hfetch, hword⟩ h
  have hpc := fetchFaults_eq_false.mp hfetch
  obtain ⟨henc, hback⟩ := selfJump_encode hpc
  have hd : decode (fetchWord s) = .ok (.jp (s.pc.setWidth 12)) := by
    rw [hword, henc]
    exact decode_encode rfl
  have hstep : step s = .next (keepKeys (jump (addrImm (s.pc.setWidth 12))
      (advance (sample keys rnd { s with agenda := rest })))) :=
    (step_of_stepRequest hr h).trans (cycle_of_decode (s := { s with agenda := rest }) hpc hd keys rnd)
  rw [hback] at hstep
  refine ⟨_, hstep, ⟨?_, ?_, ?_⟩, fun r _ => ?_, fun p hp => ?_⟩
  · simpa using hr
  · simpa using hfetch
  · rw [fetchWord_congr (s := s) (by simp) (by simp)]
    simpa using hword
  · rw [keepKeys_reg, jump_reg, advance_reg, sample_reg]
    rfl
  · cases p with
    | inputs => simp at hp
    | _ => simp [Part.same]

/-! ## Ticks -/

theorem timerTick_of_running {s : State} (h : s.runState = .running) :
    timerTick s = { s with dt := countDown s.dt, st := countDown s.st } := if_pos h

theorem timerTick_of_not_running {s : State} (h : s.runState ≠ .running) : timerTick s = s := if_neg h

/-- A tick changes the timers and nothing else. -/
theorem frameBut_timerTick (s : State) : FrameBut noReg [.delay, .sound] s (timerTick s) := by
  by_cases h : s.runState = .running
  · rw [timerTick_of_running h]
    refine ⟨fun _ _ => rfl, fun p hp => ?_⟩
    cases p with
    | delay | sound => simp at hp
    | _ => simp [Part.same]
  · rw [timerTick_of_not_running h]
    exact frameBut_refl _ _ s

/-- Settles O44: serving a tick is the timers' countdown, while RUNNING. -/
theorem tickDecrementsBothTimersToZero : Obligations.TickDecrementsBothTimersToZero := by
  intro s rest ⟨ha, hc⟩
  refine ⟨_, step_of_request ha hc, frameBut_timerTick _, fun hr => ?_, fun hr => ?_⟩
  · rw [timerTick_of_running (s := { s with agenda := rest }) hr]
    exact ⟨countDown_toNat s.dt, countDown_toNat s.st⟩
  · rw [timerTick_of_not_running (s := { s with agenda := rest }) hr]
    exact ⟨rfl, rfl⟩

theorem countDown_iterate_toNat (n : Nat) (b : Byte) : (countDown^[n] b).toNat = b.toNat - n := by
  induction n generalizing b with
  | zero => rfl
  | succ n ih =>
    rw [Function.iterate_succ_apply, ih, countDown_toNat]
    omega

/-- Ticks in a row count both timers down and leave the agenda behind them. -/
theorem runSteps_ticks (n : Nat) {s : State} {rest : List Request} (hr : s.runState = .running)
    (hlatch : s.cancelLatch = false) (ha : s.agenda = List.replicate n .tick ++ rest) :
    runSteps n s = .next { s with agenda := rest, dt := countDown^[n] s.dt, st := countDown^[n] s.st } := by
  induction n generalizing s with
  | zero =>
    subst ha
    rfl
  | succ n ih =>
    have hstep : step s = .next
        { s with agenda := List.replicate n .tick ++ rest, dt := countDown s.dt, st := countDown s.st } :=
      (step_of_request ha (cancelDue_of_latch hlatch)).trans
        (congrArg _ (timerTick_of_running (s := { s with agenda := List.replicate n .tick ++ rest }) hr))
    exact (runSteps_succ hstep n).trans (ih
      (s := { s with agenda := List.replicate n .tick ++ rest, dt := countDown s.dt, st := countDown s.st })
      hr hlatch rfl)

/-- Settles O45: by induction on the number of ticks. -/
theorem timersDecayByTheNumberOfTicks : Obligations.TimersDecayByTheNumberOfTicks := by
  intro n s rest hr hlatch ha
  refine ⟨_, runSteps_ticks n hr hlatch ha, countDown_iterate_toNat n s.dt, countDown_iterate_toNat n s.st,
    fun _ _ => rfl, fun p hp => ?_⟩
  cases p with
  | delay | sound => simp at hp
  | _ => simp [Part.same]

/-! ## Cancellation -/

/-- Settles O46: the first step latches the cancel, and the check before the second finds it. -/
theorem cancelStopsAtTheNextBoundary : Obligations.CancelStopsAtTheNextBoundary := by
  intro s rest hr ⟨ha, hc⟩ hrest
  have hlatch : step s = .next { s with agenda := rest, cancelLatch := true } := by
    rw [step_of_request ha hc]
    exact congrArg _ (if_pos (.inr hr))
  have hdue : cancelDue { s with agenda := rest, cancelLatch := true } = true := by
    simp [cancelDue, hr, hrest]
  rw [runSteps_succ hlatch, runSteps_succ (step_of_cancelDue hdue)]
  rfl

/-- A core that has ended its run ignores every request but a reset (60_exceptions.md R268). -/
theorem deliver_of_final {s : State} (h : s.Final) {r : Request} (hr : r ≠ .rst) : deliver r s = .next s := by
  have hrun : s.runState ≠ .running := by obtain h | h := h <;> rw [h] <;> nofun
  have hidle : s.runState ≠ .idle := by obtain h | h := h <;> rw [h] <;> nofun
  cases r with
  | step => exact if_neg hrun
  | tick => exact congrArg _ (if_neg hrun)
  | cancel => exact congrArg _ (if_neg (not_or.mpr ⟨hidle, hrun⟩))
  | start => exact congrArg _ (if_neg hidle)
  | load => exact congrArg _ (if_neg hidle)
  | rst => exact absurd rfl hr

/-- A step of such a core takes the next request and does nothing. -/
theorem step_of_final {s : State} (h : s.Final) (hrst : Request.rst ∉ s.agenda) :
    step s = .next { s with agenda := s.agenda.drop 1 } := by
  have hrun : s.runState ≠ .running := by obtain h | h := h <;> rw [h] <;> nofun
  have hc := cancelDue_of_not_running hrun
  cases ha : s.agenda with
  | nil =>
    rw [step_of_idle_host ha (fun hh => hrun hh.2) hc, List.drop_nil, ← ha]
  | cons r rest =>
    rw [ha] at hrst
    rw [step_of_request ha hc]
    exact deliver_of_final (s := { s with agenda := rest }) h (List.ne_of_not_mem_cons hrst).symm

/-- Settles O48: by induction on the number of steps. -/
theorem endedRunsStayEnded : Obligations.EndedRunsStayEnded := by
  intro n
  induction n with
  | zero => exact fun _ _ _ => rfl
  | succ n ih =>
    intro s h hrst
    have hrst' : Request.rst ∉ s.agenda.drop 1 := fun hm => hrst (List.mem_of_mem_drop hm)
    rw [runSteps_succ (step_of_final h hrst), ih { s with agenda := s.agenda.drop 1 } h hrst', List.drop_drop,
      Nat.add_comm]

/-- Step and tick of one clock ask for no reset. -/
theorem rst_not_mem_clockRequests (step tick : Bool) (keys : KeySet) (rnd : Byte) :
    Request.rst ∉ clockRequests false step tick keys rnd := by
  cases step <;> cases tick <;> simp [clockRequests]

/-- Settles O47: two steps stop the core, and a stopped core ignores the step and the tick behind the cancel. -/
theorem cancelWinsOverStepAndTick : Obligations.CancelWinsOverStepAndTick := by
  intro s step tick keys rnd hr hlatch ha
  have hrst := rst_not_mem_clockRequests step tick keys rnd
  have hstop := cancelStopsAtTheNextBoundary s (clockRequests false step tick keys rnd) hr
    ⟨ha, cancelDue_of_latch hlatch⟩ fun hhead => hrst (List.mem_of_head? hhead)
  have hlen : s.agenda.length + 1 = 2 + (clockRequests false step tick keys rnd).length := by
    rw [ha, show clockRequests true step tick keys rnd = .cancel :: clockRequests false step tick keys rnd from rfl,
      List.length_cons]
    omega
  rw [hlen, runSteps_add 2 _ hstop, endedRunsStayEnded _ _ (.inr rfl) hrst, List.drop_length]

/-! ## Start, load and reset -/

/-- Settles O49: each request is one test of run_state. -/
theorem startLeavesIdleAndStepWaitsForIt : Obligations.StartLeavesIdleAndStepWaitsForIt := by
  refine fun s rest keys rnd => ⟨fun h hr => ?_, fun h hr => ?_, fun h hr => ?_⟩ <;> rw [step_of_request h.1 h.2]
  · exact if_neg hr
  · exact congrArg _ (if_pos hr)
  · exact congrArg _ (if_neg hr)

/-- Settles O50: one byte is written, in IDLE. -/
theorem loadWritesOnlyInIdle : Obligations.LoadWritesOnlyInIdle := by
  intro s rest a b hw ⟨ha, hc⟩
  refine ⟨_, step_of_request ha hc, ?_⟩
  by_cases hr : s.runState = .idle
  · rw [show loadByte a b { s with agenda := rest } = setMem (s.mem.write a.toNat b) { s with agenda := rest } from
      if_pos hr]
    refine ⟨⟨fun _ _ => rfl, fun p hp => ?_⟩, fun c hne => read_write_of_ne hne b s.mem,
      fun _ => read_write_same hw a.toNat b, fun hn => absurd hr hn⟩
    exact same_setMem (same_refl p _) (List.ne_of_not_mem_cons hp) _
  · rw [show loadByte a b { s with agenda := rest } = { s with agenda := rest } from if_neg hr]
    exact ⟨frameBut_refl _ _ _, fun _ _ => rfl, fun h => absurd h hr, fun _ => rfl⟩

/-- Every register of a reset core is 0. -/
theorem resetWith_reg (c : Config) (r : Reg) : (State.resetWith c).reg r = 0 := Vector.getElem_replicate r.isLt

/-- Settles O51: a reset at the head comes before the check for a cancellation. -/
theorem resetGivesEveryResetValue : Obligations.ResetGivesEveryResetValue := by
  intro s rest ha
  have hc : cancelDue s = false := by simp [cancelDue, ha]
  exact ⟨_, step_of_request ha hc, resetWith_reg s.cfg, rfl, rfl, rfl, fun _ => List.eq_of_mem_replicate,
    List.length_replicate, rfl, rfl, pixel_replicate_zero, fun _ => rfl, rfl, rfl, rfl, rfl⟩

/-- Settles O52: every field of the reset state, read off. -/
theorem resetStateHoldsTheTable : Obligations.ResetStateHoldsTheTable :=
  ⟨resetWith_reg _, rfl, rfl, rfl, rfl, rfl, rfl, pixel_replicate_zero, fun _ => rfl, rfl, rfl, rfl, rfl, rfl, rfl, rfl⟩

/-! ## How a run ends -/

theorem cycle_ne_refused (keys : KeySet) (rnd : Byte) (s : State) (r : Refusal) : cycle keys rnd s ≠ .refused r := by
  intro h
  by_cases hpc : s.pc.toNat + 1 ≤ 0xFFF
  · cases hd : decode (fetchWord s) with
    | error =>
      rw [cycle_of_reject hpc hd] at h
      cases h
    | ok i =>
      rw [cycle_of_decode hpc hd] at h
      cases hx : exec i (advance (sample keys rnd s)) with
      | next | fault =>
        rw [hx] at h
        cases h
      | refused => exact exec_ne_refused _ _ _ hx
  · rw [cycle_of_fetchFault (by omega)] at h
    cases h

theorem deliver_ne_refused (r : Request) (s : State) (e : Refusal) : deliver r s ≠ .refused e := by
  cases r with
  | step keys rnd =>
    rw [deliver]
    split
    · exact cycle_ne_refused _ _ _ _
    · nofun
  | _ => nofun

/-- A cycle that completes leaves run_state alone. -/
theorem cycle_runState {keys : KeySet} {rnd : Byte} {s t : State} (h : cycle keys rnd s = .next t) :
    t.runState = s.runState := by
  obtain ⟨-, ⟨i, u, -, hu, rfl⟩ | ⟨e, -, rfl⟩⟩ := cycle_eq_next h
  · exact (noInstructionWritesHostState _ _ _ hu).1.1
  · rfl

/-- Only a reset takes a RUNNING core out of RUNNING, of all requests that it serves. -/
theorem deliver_runState {r : Request} {s t : State} (hr : s.runState = .running) (hrst : r ≠ .rst)
    (h : deliver r s = .next t) : t.runState = .running := by
  cases r with
  | step keys rnd =>
    rw [deliver_step hr] at h
    rw [cycle_runState h, hr]
  | tick =>
    cases h
    rw [timerTick_of_running hr]
    exact hr
  | cancel =>
    cases h
    rw [latchCancel, if_pos (.inr hr)]
    exact hr
  | start =>
    cases h
    rw [startRun, if_neg (by rw [hr]; nofun)]
    exact hr
  | load =>
    cases h
    rw [loadByte, if_neg (by rw [hr]; nofun)]
    exact hr
  | rst => exact absurd rfl hrst

/-- Settles O59: of what a step can be, only a cycle faults, and none is refused. -/
theorem runsEndOnlyByFaultCancelOrReset : Obligations.RunsEndOnlyByFaultCancelOrReset := by
  intro s
  obtain ⟨hc, e⟩ | ⟨-, r, rest, ha, e⟩ | ⟨-, -, -, hr, e⟩ | ⟨-, -, -, e⟩ := step_cases s <;> rw [e]
  · refine ⟨nofun, fun _ h => (nomatch h), fun t h _ => .inr (.inl ⟨(cancelDue_eq_true hc).2, ?_⟩)⟩
    exact (Host.Outcome.next.inj h).symm
  · refine ⟨deliver_ne_refused _ _, fun f h => (deliver_eq_fault h).1, fun t h hr => ?_⟩
    by_cases hrst : r = .rst
    · exact .inr (.inr ⟨rest, hrst ▸ ha⟩)
    · exact .inl (deliver_runState (s := { s with agenda := rest }) hr hrst h)
  · exact ⟨cycle_ne_refused _ _ _, fun _ _ => hr, fun t h _ => .inl ((cycle_runState h).trans hr)⟩
  · refine ⟨nofun, fun _ h => (nomatch h), fun t h hr => .inl ?_⟩
    cases h
    exact hr

/-! ## Without a request for a cycle -/

/-- What a step that runs no cycle and serves no reset can change: Memory, timers, run_state, the latch and what is
still to come. -/
def HostChange (s t : State) : Prop :=
  ∃ m dt st r c a, t = { s with mem := m, dt := dt, st := st, runState := r, cancelLatch := c, agenda := a }

theorem hostChange_deliver {s t : State} {r : Request} (rest : List Request) (hstep : ∀ keys rnd, r ≠ .step keys rnd)
    (hrst : r ≠ .rst) (h : deliver r { s with agenda := rest } = .next t) : HostChange s t := by
  cases r with
  | step keys rnd => exact absurd rfl (hstep keys rnd)
  | rst => exact absurd rfl hrst
  | tick =>
    cases h
    unfold timerTick
    split <;> exact ⟨_, _, _, _, _, _, rfl⟩
  | cancel =>
    cases h
    unfold latchCancel
    split <;> exact ⟨_, _, _, _, _, _, rfl⟩
  | start =>
    cases h
    unfold startRun
    split <;> exact ⟨_, _, _, _, _, _, rfl⟩
  | load =>
    cases h
    unfold loadByte
    split <;> exact ⟨_, _, _, _, _, _, rfl⟩

/-- The frame of such a step. -/
theorem frameBut_of_hostChange {s t : State} (h : HostChange s t) :
    FrameBut noReg [.memory, .delay, .sound, .status, .inputs] s t ∧
      t.keys = s.keys ∧ t.keyPrev = s.keyPrev ∧ t.rnd = s.rnd ∧ t.freeIndex = s.freeIndex := by
  obtain ⟨m, dt, st, r, c, a, rfl⟩ := h
  refine ⟨⟨fun _ _ => rfl, fun p hp => ?_⟩, rfl, rfl, rfl, rfl⟩
  cases p with
  | memory | delay | sound | status | inputs => simp at hp
  | _ => simp [Part.same]

/-- Nothing asked for: any number of steps leaves the state as it is. -/
theorem runSteps_of_nothing_asked {s : State} (hreq : ¬s.CycleRequested) (ha : s.agenda = [])
    (hc : cancelDue s = false) (n : Nat) : runSteps n s = .next s := by
  have hstep : step s = .next s := step_of_idle_host ha (fun h => hreq (.inr ⟨ha, h.1⟩)) hc
  induction n with
  | zero => rfl
  | succ n ih => rw [runSteps_succ hstep, ih]

/-- Settles O60: without a request a step is a cancellation, another request, or nothing. -/
theorem cyclesRunOnlyOnRequest : Obligations.CyclesRunOnlyOnRequest := by
  intro s hreq
  refine ⟨?faults, ?frame, fun n ha hc => runSteps_of_nothing_asked hreq ha hc n⟩ <;>
    obtain ⟨-, e⟩ | ⟨-, r, rest, ha, e⟩ | ⟨-, ha, hheld, -, -⟩ | ⟨-, -, -, e⟩ := step_cases s
  case faults.inr.inr.inl => exact absurd (.inr ⟨ha, hheld⟩) hreq
  case frame.inr.inr.inl => exact absurd (.inr ⟨ha, hheld⟩) hreq
  case faults.inl => simp [e]
  case faults.inr.inr.inr => simp [e]
  case faults.inr.inl =>
    intro f hf
    obtain ⟨-, keys, rnd, rfl, -⟩ := deliver_eq_fault (e ▸ hf)
    exact hreq (.inl ⟨keys, rnd, rest, ha⟩)
  case frame.inl =>
    intro t ht _
    cases e.symm.trans ht
    exact frameBut_of_hostChange ⟨_, _, _, _, _, _, rfl⟩
  case frame.inr.inr.inr =>
    intro t ht _
    cases e.symm.trans ht
    exact frameBut_of_hostChange ⟨_, _, _, _, _, _, rfl⟩
  case frame.inr.inl =>
    intro t ht hrst
    refine frameBut_of_hostChange (hostChange_deliver rest (fun keys rnd hr => ?_) (fun hr => ?_) (e ▸ ht))
    · exact hreq (.inl ⟨keys, rnd, rest, hr ▸ ha⟩)
    · exact hrst rest (hr ▸ ha)

end Sys2Proof.Machine
end

section
/-! Launch (70_reset_and_hazards.md, section 2; 20_memory.md, section 3): the loader's requests as one block store
each, and what the two blocks leave in memory. -/

namespace Sys2Proof.Machine

theorem loadRequests_length : ∀ (a : Nat) (bs : List Byte), (loadRequests a bs).length = bs.length
  | _, [] => rfl
  | a, _ :: bs => congrArg (· + 1) (loadRequests_length (a + 1) bs)

/-- A load at the head of an IDLE core's agenda writes its byte. -/
theorem step_of_load {s : State} {a : Nat} (ha : a < 0x1000) {b : Byte} {rest : List Request}
    (hr : s.runState = .idle) (h : s.agenda = .load (BitVec.ofNat 12 a) b :: rest) :
    step s = .next { s with mem := s.mem.write a b, agenda := rest } := by
  have hc : cancelDue s = false := cancelDue_of_not_running (by rw [hr]; nofun)
  have hto : (BitVec.ofNat 12 a).toNat = a := by rw [BitVec.toNat_ofNat, Nat.mod_eq_of_lt ha]
  have hload : loadByte (BitVec.ofNat 12 a) b { s with agenda := rest } =
      setMem (s.mem.write (BitVec.ofNat 12 a).toNat b) { s with agenda := rest } := if_pos hr
  rw [hto] at hload
  exact (step_of_request h hc).trans (congrArg _ hload)

/-- The load requests of a block, run in IDLE, are one block store (20_memory.md R64). -/
theorem runSteps_loads : ∀ (bs : List Byte) (a : Nat) {s : State} {rest : List Request}, s.runState = .idle →
    s.agenda = loadRequests a bs ++ rest → a + bs.length ≤ 0x1000 →
    runSteps bs.length s = .next { s with mem := s.mem.writeList a bs, agenda := rest }
  | [], _, s, _, _, h, _ => by
    subst h
    rfl
  | b :: bs, a, s, rest, hr, h, hle => by
    rw [List.length_cons] at hle
    exact (runSteps_succ (step_of_load (by omega) hr h) bs.length).trans
      (runSteps_loads bs (a + 1)
        (s := { s with mem := s.mem.write a b, agenda := loadRequests (a + 1) bs ++ rest }) hr rfl (by omega))

/-- The image cut to the program region fits it (70_reset_and_hazards.md R304). -/
theorem programImage_length (program : List Byte) : (program.take programCapacity).length ≤ 3584 :=
  List.length_take_le _ _

/-- Settles O53: two block stores, then the start. -/
theorem loaderRequestsReachTheLaunchState : Obligations.LoaderRequestsReachTheLaunchState := by
  intro font program
  have himage := programImage_length program
  have hfont := runSteps_loads font.toList fontBase
    (s := { State.reset with agenda := launchRequests font program }) rfl rfl (by simp [fontBase])
  have hprogram := runSteps_loads (program.take programCapacity) programBase
    (s := { State.reset with mem := Memory.writeList [] fontBase font.toList,
                             agenda := loadRequests programBase (program.take programCapacity) ++ [.start] })
    rfl rfl (by rw [programBase]; omega)
  have hlen : (launchRequests font program).length =
      font.toList.length + ((program.take programCapacity).length + 1) := by
    simp only [launchRequests, List.length_append, loadRequests_length, List.length_singleton]
  rw [hlen, runSteps_add _ _ hfont]
  exact (runSteps_add _ _ hprogram).trans rfl

/-- What the program's block does not reach is what the font's block left. -/
theorem read_launchMemory_outside_program (font : Vector Byte 80) (program : List Byte) {a : Nat}
    (h : a < 0x200 ∨ 0x200 + (program.take programCapacity).length ≤ a) :
    (launchMemory font program).read a = (Memory.writeList [] fontBase font.toList).read a :=
  read_writeList_outside _ _ _ h

/-- What neither block reaches was never written. -/
theorem read_fontBlock_outside (font : Vector Byte 80) {a : Nat} (h : a < 0x050 ∨ 0x0A0 ≤ a) :
    (Memory.writeList [] fontBase font.toList).read a = 0 :=
  read_writeList_outside _ _ _ (by rw [font.length_toList, fontBase]; omega)

theorem read_launchMemory_font (font : Vector Byte 80) (program : List Byte) {a : Nat} (h : 0x050 ≤ a ∧ a < 0x0A0) :
    (launchMemory font program).read a = font[a - 0x050]'(by omega) := by
  have hlen : font.toList.length = 80 := font.length_toList
  have hbyte := read_writeList font.toList fontBase (a - 0x050) empty_wf (by rw [hlen]; decide) (by rw [hlen]; omega)
  rw [fontBase, Nat.add_sub_cancel' h.1] at hbyte
  rw [read_launchMemory_outside_program font program (by omega), hbyte, Vector.getElem_toList]

theorem read_launchMemory_program (font : Vector Byte 80) (program : List Byte) {a : Nat}
    (h : 0x200 ≤ a ∧ a < 0x1000) : (launchMemory font program).read a = program.getD (a - 0x200) 0 := by
  have himage := programImage_length program
  by_cases hk : a - 0x200 < (program.take programCapacity).length
  · have hwf : (Memory.writeList [] fontBase font.toList).wf = true :=
      writeList_wf _ _ empty_wf (by rw [font.length_toList]; decide)
    have hbyte := read_writeList (program.take programCapacity) programBase (a - 0x200) hwf
      (by rw [programBase]; omega) hk
    rw [programBase, Nat.add_sub_cancel' h.1] at hbyte
    rw [List.length_take] at hk
    rw [launchMemory, hbyte, List.getElem_take, List.getD_eq_getElem _ _ (by omega)]
  · rw [read_launchMemory_outside_program font program (by omega), read_fontBlock_outside font (by omega)]
    rw [List.length_take, programCapacity] at hk
    rw [List.getD_eq_default _ _ (by omega)]

/-- Settles O54: the two blocks lie apart. -/
theorem launchMemoryIsFontProgramAndZero : Obligations.LaunchMemoryIsFontProgramAndZero := by
  intro font program a
  change (launchMemory font program).read a = _
  have himage := programImage_length program
  split_ifs with hf hp
  · exact read_launchMemory_font font program hf
  · exact read_launchMemory_program font program hp
  · rw [read_launchMemory_outside_program font program (by omega), read_fontBlock_outside font (by omega)]

end Sys2Proof.Machine
end
